-- ==== Sys2Proof/Word.lean ====
section
/-! DEFINITION. The word types of the machine (spec/10_state.md R11 to R16, spec/00_scope.md R5): unsigned bit
vectors, bit 0 the least significant; register indices are numbers below 16. -/

namespace Sys2Proof

/-- A memory byte, a general register, a timer (R11, R16, R23). -/
abbrev Byte := BitVec 8

/-- An instruction word, the index register, the program counter, a stack entry (R13, R14, R15, R45). -/
abbrev Word := BitVec 16

/-- The 12-bit address field `NNN` (spec/30_encoding.md R46). -/
abbrev Addr12 := BitVec 12

/-- The 4-bit count field `N` (R46). -/
abbrev Nibble := BitVec 4

/-- A register index `X` or `Y`: "always in [0,15] by construction" (R11). -/
abbrev RegIdx := Fin 16

end Sys2Proof
end

