-- ==== Sys2Proof/Syntax.lean ====
section
/-! DEFINITION. The instruction set as syntax: one constructor per row of spec/opcode_table.json
(spec/30_encoding.md R49, R51: 34 instructions and `Unknown(w)`), in the table's order. -/

namespace Sys2Proof

/-- A decoded instruction (R51). `x` and `y` are register indices, `n` the count field, `nn` the 8-bit immediate,
`nnn` the 12-bit address. -/
inductive Instr where
  /-- `00E0` CLS (R85). -/
  | cls
  /-- `00EE` RET (R62). -/
  | ret
  /-- `1NNN` JP NNN (R63). -/
  | jp (nnn : Addr12)
  /-- `2NNN` CALL NNN (R64). -/
  | call (nnn : Addr12)
  /-- `3XNN` SE Vx, NN (R65). -/
  | seImm (x : RegIdx) (nn : Byte)
  /-- `4XNN` SNE Vx, NN (R66). -/
  | sneImm (x : RegIdx) (nn : Byte)
  /-- `5XY0` SE Vx, Vy (R67). -/
  | seReg (x y : RegIdx)
  /-- `6XNN` LD Vx, NN (R70). -/
  | ldImm (x : RegIdx) (nn : Byte)
  /-- `7XNN` ADD Vx, NN (R71). -/
  | addImm (x : RegIdx) (nn : Byte)
  /-- `8XY0` LD Vx, Vy (R73). -/
  | ldReg (x y : RegIdx)
  /-- `8XY1` OR Vx, Vy (R74). -/
  | orReg (x y : RegIdx)
  /-- `8XY2` AND Vx, Vy (R75). -/
  | andReg (x y : RegIdx)
  /-- `8XY3` XOR Vx, Vy (R76). -/
  | xorReg (x y : RegIdx)
  /-- `8XY4` ADD Vx, Vy (R77). -/
  | addReg (x y : RegIdx)
  /-- `8XY5` SUB Vx, Vy (R78). -/
  | subReg (x y : RegIdx)
  /-- `8XY6` SHR Vx, Vy (R79). -/
  | shrReg (x y : RegIdx)
  /-- `8XY7` SUBN Vx, Vy (R80). -/
  | subnReg (x y : RegIdx)
  /-- `8XYE` SHL Vx, Vy (R81). -/
  | shlReg (x y : RegIdx)
  /-- `9XY0` SNE Vx, Vy (R68). -/
  | sneReg (x y : RegIdx)
  /-- `ANNN` LD I, NNN (R100). -/
  | ldI (nnn : Addr12)
  /-- `BNNN` JP V0, NNN (R69). -/
  | jpV0 (nnn : Addr12)
  /-- `CXNN` RND Vx, NN (R82). -/
  | rnd (x : RegIdx) (nn : Byte)
  /-- `DXYN` DRW Vx, Vy, N (R86). -/
  | drw (x y : RegIdx) (n : Nibble)
  /-- `EX9E` SKP Vx (R90). -/
  | skp (x : RegIdx)
  /-- `EXA1` SKNP Vx (R91). -/
  | sknp (x : RegIdx)
  /-- `FX07` LD Vx, DT (R93). -/
  | ldVxDt (x : RegIdx)
  /-- `FX0A` LD Vx, K (R92). -/
  | ldVxK (x : RegIdx)
  /-- `FX15` LD DT, Vx (R94). -/
  | ldDtVx (x : RegIdx)
  /-- `FX18` LD ST, Vx (R95). -/
  | ldStVx (x : RegIdx)
  /-- `FX1E` ADD I, Vx (R101). -/
  | addI (x : RegIdx)
  /-- `FX29` LD F, Vx (R102). -/
  | ldF (x : RegIdx)
  /-- `FX33` LD B, Vx (R103). -/
  | ldB (x : RegIdx)
  /-- `FX55` LD [I], Vx (R104). -/
  | storeRegs (x : RegIdx)
  /-- `FX65` LD Vx, [I] (R105). -/
  | loadRegs (x : RegIdx)
  /-- A word that matches no row (R50, R61). -/
  | unknown (w : Word)
  deriving DecidableEq, Repr

end Sys2Proof
end

