-- ==== Sys2Proof/WellFormed.lean ====
section
/-! DEFINITION. Well-formed instructions. Every operand field has its exact width in Syntax, so the one thing a term
can get wrong is `unknown w` for a word that IS an instruction: the check is the list of unknown words of
spec/30_encoding.md R50, class by class, written apart from the decoder and from the opcode map. -/

namespace Sys2Proof

/-- The unknown words of R50, by the class `op = w[15:12]`. -/
def isUnknownWord (w : Word) : Bool :=
  let op := (w.extractLsb' 12 4).toNat
  let nnn := (w.extractLsb' 0 12).toNat
  let nn := (w.extractLsb' 0 8).toNat
  let n := (w.extractLsb' 0 4).toNat
  if op = 0x0 then !([0x0E0, 0x0EE].contains nnn)
  else if op = 0x5 then n != 0
  else if op = 0x8 then [0x8, 0x9, 0xA, 0xB, 0xC, 0xD, 0xF].contains n
  else if op = 0x9 then n != 0
  else if op = 0xE then !([0x9E, 0xA1].contains nn)
  else if op = 0xF then !([0x07, 0x0A, 0x15, 0x18, 0x1E, 0x29, 0x33, 0x55, 0x65].contains nn)
  else false

/-- An instruction term stands for some word: `unknown w` only for a word of R50. -/
def Instr.wf : Instr → Bool
  | .unknown w => isUnknownWord w
  | _ => true

end Sys2Proof
end

