-- ==== Sys2Proof/Decode.lean ====
section
/-! DEFINITION. Decoding and encoding (spec/30_encoding.md R45 to R51), total on any bytes; the opcode map of R49 as
data; and the decoder on the words of spec/opcode_table.json. -/

namespace Sys2Proof

/-! ## The fields of a word (R46) -/

/-- `op = w[15:12]`. -/
def fieldOp (w : Word) : Nat := (w.extractLsb' 12 4).toNat

/-- `X = w[11:8]`. -/
def fieldX (w : Word) : RegIdx := (w.extractLsb' 8 4).toFin

/-- `Y = w[7:4]`. -/
def fieldY (w : Word) : RegIdx := (w.extractLsb' 4 4).toFin

/-- `N = w[3:0]`. -/
def fieldN (w : Word) : Nibble := w.extractLsb' 0 4

/-- `NN = w[7:0]`. -/
def fieldNN (w : Word) : Byte := w.extractLsb' 0 8

/-- `NNN = w[11:0]`. -/
def fieldNNN (w : Word) : Addr12 := w.extractLsb' 0 12

/-! ## Decoding (R49, R50, R51) -/

/-- Class 8 dispatches on `N` among 0 to 7 and E (R49). -/
def decodeAlu (w : Word) : Instr :=
  match (fieldN w).toNat with
  | 0x0 => .ldReg (fieldX w) (fieldY w)
  | 0x1 => .orReg (fieldX w) (fieldY w)
  | 0x2 => .andReg (fieldX w) (fieldY w)
  | 0x3 => .xorReg (fieldX w) (fieldY w)
  | 0x4 => .addReg (fieldX w) (fieldY w)
  | 0x5 => .subReg (fieldX w) (fieldY w)
  | 0x6 => .shrReg (fieldX w) (fieldY w)
  | 0x7 => .subnReg (fieldX w) (fieldY w)
  | 0xE => .shlReg (fieldX w) (fieldY w)
  | _ => .unknown w

/-- Class E dispatches on `NN` (R49). -/
def decodeKey (w : Word) : Instr :=
  match (fieldNN w).toNat with
  | 0x9E => .skp (fieldX w)
  | 0xA1 => .sknp (fieldX w)
  | _ => .unknown w

/-- Class F dispatches on `NN` (R49). -/
def decodeMisc (w : Word) : Instr :=
  match (fieldNN w).toNat with
  | 0x07 => .ldVxDt (fieldX w)
  | 0x0A => .ldVxK (fieldX w)
  | 0x15 => .ldDtVx (fieldX w)
  | 0x18 => .ldStVx (fieldX w)
  | 0x1E => .addI (fieldX w)
  | 0x29 => .ldF (fieldX w)
  | 0x33 => .ldB (fieldX w)
  | 0x55 => .storeRegs (fieldX w)
  | 0x65 => .loadRegs (fieldX w)
  | _ => .unknown w

/-- Class 0 is selected by the whole word (R49, spec/92_eei_decisions.md D10). -/
def decodeSys (w : Word) : Instr :=
  match (fieldNNN w).toNat with
  | 0x0E0 => .cls
  | 0x0EE => .ret
  | _ => .unknown w

/-- `decode(opcode)`: total, "no ambiguity, no failure mode" (R46, R51). -/
def decode (w : Word) : Instr :=
  match fieldOp w with
  | 0x0 => decodeSys w
  | 0x1 => .jp (fieldNNN w)
  | 0x2 => .call (fieldNNN w)
  | 0x3 => .seImm (fieldX w) (fieldNN w)
  | 0x4 => .sneImm (fieldX w) (fieldNN w)
  | 0x5 => if fieldN w = 0 then .seReg (fieldX w) (fieldY w) else .unknown w
  | 0x6 => .ldImm (fieldX w) (fieldNN w)
  | 0x7 => .addImm (fieldX w) (fieldNN w)
  | 0x8 => decodeAlu w
  | 0x9 => if fieldN w = 0 then .sneReg (fieldX w) (fieldY w) else .unknown w
  | 0xA => .ldI (fieldNNN w)
  | 0xB => .jpV0 (fieldNNN w)
  | 0xC => .rnd (fieldX w) (fieldNN w)
  | 0xD => .drw (fieldX w) (fieldY w) (fieldN w)
  | 0xE => decodeKey w
  | _ => decodeMisc w

/-- Why a byte sequence is no instruction: every instruction has 2 bytes (R45). No word is rejected (R51). -/
inductive DecodeError where
  /-- Fewer than two bytes (R45). -/
  | truncated
  deriving DecidableEq, Repr

/-- The word two bytes stand for, the byte at the lower address first: big-endian (spec/20_memory.md R32). -/
def wordOfBytes (hi lo : Byte) : Word := hi ++ lo

/-- The byte of a word that stands at the lower address (R32). -/
def highByte (w : Word) : Byte := w.extractLsb' 8 8

/-- The byte of a word that stands at the higher address (R32). -/
def lowByte (w : Word) : Byte := w.extractLsb' 0 8

/-- Decode the first instruction of a byte sequence, and give the rest of it. -/
def decodeBytes : List Byte → Except DecodeError (Instr × List Byte)
  | hi :: lo :: rest => .ok (decode (wordOfBytes hi lo), rest)
  | _ => .error .truncated

/-! ## Encoding (R46, R47, R49) -/

/-- A register index as a 4-bit field. -/
def nib (x : RegIdx) : Nibble := BitVec.ofFin x

/-- Format `REG_IMM`: `op[4] X[4] NN[8]` (R47). -/
def encRegImm (op : Nibble) (x : RegIdx) (nn : Byte) : Word := op ++ nib x ++ nn

/-- Format `REG_REG`: `op[4] X[4] Y[4] sub[4]` (R47). -/
def encRegReg (op : Nibble) (x y : RegIdx) (sub : Nibble) : Word := op ++ nib x ++ nib y ++ sub

/-- Format `ADDR`: `op[4] NNN[12]` (R47). -/
def encAddr (op : Nibble) (nnn : Addr12) : Word := op ++ nnn

/-- The word of an instruction (R49). -/
def encode : Instr → Word
  | .cls => 0x00E0
  | .ret => 0x00EE
  | .jp nnn => encAddr 0x1 nnn
  | .call nnn => encAddr 0x2 nnn
  | .seImm x nn => encRegImm 0x3 x nn
  | .sneImm x nn => encRegImm 0x4 x nn
  | .seReg x y => encRegReg 0x5 x y 0x0
  | .ldImm x nn => encRegImm 0x6 x nn
  | .addImm x nn => encRegImm 0x7 x nn
  | .ldReg x y => encRegReg 0x8 x y 0x0
  | .orReg x y => encRegReg 0x8 x y 0x1
  | .andReg x y => encRegReg 0x8 x y 0x2
  | .xorReg x y => encRegReg 0x8 x y 0x3
  | .addReg x y => encRegReg 0x8 x y 0x4
  | .subReg x y => encRegReg 0x8 x y 0x5
  | .shrReg x y => encRegReg 0x8 x y 0x6
  | .subnReg x y => encRegReg 0x8 x y 0x7
  | .shlReg x y => encRegReg 0x8 x y 0xE
  | .sneReg x y => encRegReg 0x9 x y 0x0
  | .ldI nnn => encAddr 0xA nnn
  | .jpV0 nnn => encAddr 0xB nnn
  | .rnd x nn => encRegImm 0xC x nn
  | .drw x y n => encRegReg 0xD x y n
  | .skp x => encRegImm 0xE x 0x9E
  | .sknp x => encRegImm 0xE x 0xA1
  | .ldVxDt x => encRegImm 0xF x 0x07
  | .ldVxK x => encRegImm 0xF x 0x0A
  | .ldDtVx x => encRegImm 0xF x 0x15
  | .ldStVx x => encRegImm 0xF x 0x18
  | .addI x => encRegImm 0xF x 0x1E
  | .ldF x => encRegImm 0xF x 0x29
  | .ldB x => encRegImm 0xF x 0x33
  | .storeRegs x => encRegImm 0xF x 0x55
  | .loadRegs x => encRegImm 0xF x 0x65
  | .unknown w => w

/-- The bytes of an instruction as they stand in memory, the lower address first (R32, R45). -/
def encodeBytes (i : Instr) : List Byte := [highByte (encode i), lowByte (encode i)]

/-! ## The opcode map (R49) -/

/-- A row of R49: "a word `w` selects the row when `w & mask = match`". -/
structure OpcodeRow where
  mnemonic : String
  mask : Word
  value : Word
  deriving DecidableEq, Repr

/-- Whether a word selects a row (R49). -/
def OpcodeRow.selects (r : OpcodeRow) (w : Word) : Bool := w &&& r.mask == r.value

/-- Rows 1 to 19 of R49. -/
def opcodeRowsLow : List OpcodeRow :=
  [⟨"CLS", 0xFFFF, 0x00E0⟩, ⟨"RET", 0xFFFF, 0x00EE⟩, ⟨"JP_NNN", 0xF000, 0x1000⟩, ⟨"CALL_NNN", 0xF000, 0x2000⟩,
   ⟨"SE_Vx__NN", 0xF000, 0x3000⟩, ⟨"SNE_Vx__NN", 0xF000, 0x4000⟩, ⟨"SE_Vx__Vy", 0xF00F, 0x5000⟩,
   ⟨"LD_Vx__NN", 0xF000, 0x6000⟩, ⟨"ADD_Vx__NN", 0xF000, 0x7000⟩] ++
  [⟨"LD_Vx__Vy", 0xF00F, 0x8000⟩, ⟨"OR_Vx__Vy", 0xF00F, 0x8001⟩, ⟨"AND_Vx__Vy", 0xF00F, 0x8002⟩,
   ⟨"XOR_Vx__Vy", 0xF00F, 0x8003⟩, ⟨"ADD_Vx__Vy", 0xF00F, 0x8004⟩, ⟨"SUB_Vx__Vy", 0xF00F, 0x8005⟩,
   ⟨"SHR_Vx__Vy", 0xF00F, 0x8006⟩, ⟨"SUBN_Vx__Vy", 0xF00F, 0x8007⟩, ⟨"SHL_Vx__Vy", 0xF00F, 0x800E⟩,
   ⟨"SNE_Vx__Vy", 0xF00F, 0x9000⟩]

/-- Rows 20 to 34 of R49. -/
def opcodeRowsHigh : List OpcodeRow :=
  [⟨"LD_I__NNN", 0xF000, 0xA000⟩, ⟨"JP_V0__NNN", 0xF000, 0xB000⟩, ⟨"RND_Vx__NN", 0xF000, 0xC000⟩,
   ⟨"DRW_Vx__Vy__N", 0xF000, 0xD000⟩, ⟨"SKP_Vx", 0xF0FF, 0xE09E⟩, ⟨"SKNP_Vx", 0xF0FF, 0xE0A1⟩] ++
  [⟨"LD_Vx__DT", 0xF0FF, 0xF007⟩, ⟨"LD_Vx__K", 0xF0FF, 0xF00A⟩, ⟨"LD_DT__Vx", 0xF0FF, 0xF015⟩,
   ⟨"LD_ST__Vx", 0xF0FF, 0xF018⟩, ⟨"ADD_I__Vx", 0xF0FF, 0xF01E⟩, ⟨"LD_F__Vx", 0xF0FF, 0xF029⟩,
   ⟨"LD_B__Vx", 0xF0FF, 0xF033⟩, ⟨"LD__I___Vx", 0xF0FF, 0xF055⟩, ⟨"LD_Vx___I", 0xF0FF, 0xF065⟩]

/-- The 34 rows of R49, in its order. -/
def opcodeRows : List OpcodeRow := opcodeRowsLow ++ opcodeRowsHigh

/-- The mnemonic of an instruction as spec/opcode_table.json spells it. -/
def Instr.mnemonic : Instr → String
  | .cls => "CLS"
  | .ret => "RET"
  | .jp _ => "JP_NNN"
  | .call _ => "CALL_NNN"
  | .seImm _ _ => "SE_Vx__NN"
  | .sneImm _ _ => "SNE_Vx__NN"
  | .seReg _ _ => "SE_Vx__Vy"
  | .ldImm _ _ => "LD_Vx__NN"
  | .addImm _ _ => "ADD_Vx__NN"
  | .ldReg _ _ => "LD_Vx__Vy"
  | .orReg _ _ => "OR_Vx__Vy"
  | .andReg _ _ => "AND_Vx__Vy"
  | .xorReg _ _ => "XOR_Vx__Vy"
  | .addReg _ _ => "ADD_Vx__Vy"
  | .subReg _ _ => "SUB_Vx__Vy"
  | .shrReg _ _ => "SHR_Vx__Vy"
  | .subnReg _ _ => "SUBN_Vx__Vy"
  | .shlReg _ _ => "SHL_Vx__Vy"
  | .sneReg _ _ => "SNE_Vx__Vy"
  | .ldI _ => "LD_I__NNN"
  | .jpV0 _ => "JP_V0__NNN"
  | .rnd _ _ => "RND_Vx__NN"
  | .drw _ _ _ => "DRW_Vx__Vy__N"
  | .skp _ => "SKP_Vx"
  | .sknp _ => "SKNP_Vx"
  | .ldVxDt _ => "LD_Vx__DT"
  | .ldVxK _ => "LD_Vx__K"
  | .ldDtVx _ => "LD_DT__Vx"
  | .ldStVx _ => "LD_ST__Vx"
  | .addI _ => "ADD_I__Vx"
  | .ldF _ => "LD_F__Vx"
  | .ldB _ => "LD_B__Vx"
  | .storeRegs _ => "LD__I___Vx"
  | .loadRegs _ => "LD_Vx___I"
  | .unknown _ => "NOP.unknown"

/-! ## The decoder on the table's words -/

/-- The 16-bit word whose low `nbits` bits are those of `w`, the bits above them 0; bit 0 is the least significant
(R5, R46, the numbering of spec/opcode_table.json). -/
def tableWord (nbits w : Nat) : Word := BitVec.ofNat 16 (w % 2 ^ min nbits 16)

/-- The instruction the decoder reads from an instruction of spec/opcode_table.json whose bits are `w`, laid out in
bytes as memory holds it (log 20: more than 16 bits is no instruction). -/
def decodeTableWord (nbits w : Nat) : Option Instr :=
  if nbits ≤ 16 then
    match decodeBytes [highByte (tableWord nbits w), lowByte (tableWord nbits w)] with
    | .ok (i, _) => some i
    | .error _ => none
  else none

end Sys2Proof
end

