-- ==== Sys2Proof/Config.lean ====
section
/-! DEFINITION. What the spec leaves open for the implementation or the environment, as constants without a body
(spec/00_scope.md R4: the parameters marked OPEN; spec/60_exceptions.md R124: the random source). Nothing in Lean can
tell their values, so a claim about the model holds for every value. The parameters that have a value stand in
Machine/Params.lean. -/

namespace Sys2Proof

/-- The register the two shift instructions read (R4 `SHIFT_SRC`; spec/92_eei_decisions.md D9). -/
inductive ShiftSrc where
  /-- The shifted value is `V[X]`. -/
  | x
  /-- The shifted value is `V[Y]`. -/
  | y
  deriving DecidableEq, Repr, Inhabited

/-- `SHIFT_SRC`, OPEN (R4, D9; log 6). -/
opaque Config.shiftSrc : ShiftSrc

/-- `IPS`, the configured instructions per second, OPEN (R4, R119, D18; log 7). -/
opaque Config.ips : Nat

/-- The random source (R124, D20; log 5): the byte of the `n`-th draw, a free value. -/
opaque Config.draw8 (n : Nat) : Byte

end Sys2Proof
end

