-- ==== Sys2Proof/Machine/Params.lean ====
section
/-! DEFINITION. The parameters of spec/00_scope.md R4 that have a value. The two whose value is general knowledge, `ENTRY`
and `GLYPHS` (spec/92_eei_decisions.md D3, D4), are the structure `Params`, which the machine takes as an argument: a claim
about every state holds for every value of them, and `Params.standard` has the spec's values (log 8, log 25). -/

namespace Sys2Proof.Machine

/-- `MEM_SIZE`: bytes of memory (R4, spec/20_memory.md R30). -/
abbrev memSize : Nat := 4096

/-- `ADDR_MAX`: the highest valid address (R4, R30). -/
abbrev addrMax : Nat := 0xFFF

/-- `STACK_DEPTH`: call-stack entries (R4, spec/10_state.md R15). -/
abbrev stackDepth : Nat := 12

/-- `DISP_W`: display columns (R4, R18). -/
abbrev dispW : Nat := 64

/-- `DISP_H`: display rows (R4, R18). -/
abbrev dispH : Nat := 32

/-- `GLYPH_H`: bytes per font glyph (R4, spec/44_index_and_memory.md R102). -/
abbrev glyphH : Nat := 5

/-- `FRAME_RATE`: frames per second (R4, spec/60_exceptions.md R127). -/
abbrev frameRate : Nat := 60

/-- Glyphs 0 to 7 of the glyph table (spec/20_memory.md R36). -/
def glyphsLow : List Byte :=
  [0xF0, 0x90, 0x90, 0x90, 0xF0, 0x20, 0x60, 0x20, 0x20, 0x70] ++
  [0xF0, 0x10, 0xF0, 0x80, 0xF0, 0xF0, 0x10, 0xF0, 0x10, 0xF0] ++
  [0x90, 0x90, 0xF0, 0x10, 0x10, 0xF0, 0x80, 0xF0, 0x10, 0xF0] ++
  [0xF0, 0x80, 0xF0, 0x90, 0xF0, 0xF0, 0x10, 0x20, 0x40, 0x40]

/-- Glyphs 8 to F of the glyph table (R36). -/
def glyphsHigh : List Byte :=
  [0xF0, 0x90, 0xF0, 0x90, 0xF0, 0xF0, 0x90, 0xF0, 0x10, 0xF0] ++
  [0xF0, 0x90, 0xF0, 0x90, 0x90, 0xE0, 0x90, 0xE0, 0x90, 0xE0] ++
  [0xF0, 0x80, 0x80, 0x80, 0xF0, 0xE0, 0x90, 0x90, 0x90, 0xE0] ++
  [0xF0, 0x80, 0xF0, 0x80, 0xF0, 0xF0, 0x80, 0xF0, 0x80, 0x80]

/-- The 80 bytes of the glyph table of R36 (D4). -/
def glyphTable : List Byte := glyphsLow ++ glyphsHigh

/-- The named parameters "the model takes as an argument, so that a reader who distrusts the value can quantify over it"
(R4). -/
structure Params where
  /-- `ENTRY`: where the image is copied and where `PC` starts (D3). -/
  entry : Addr12
  /-- `GLYPHS`: the 80 bytes of the glyph table, which load puts at `FONT_BASE = 0x000` (D4). -/
  glyphs : Vector Byte 80
  deriving DecidableEq, Repr

/-- The values R4 gives: `ENTRY = 0x200` and the table of R36 (log 8). -/
def Params.standard : Params := { entry := 0x200, glyphs := ⟨⟨glyphTable⟩, rfl⟩ }

/-- `CAPACITY`: the largest loadable image, `MEM_SIZE - ENTRY` (R4, spec/60_exceptions.md R126). -/
def Params.capacity (p : Params) : Nat := memSize - p.entry.toNat

/-- `STEPS_PER_FRAME = IPS div FRAME_RATE` (R119). -/
def stepsPerFrame : Nat := Config.ips / frameRate

/-- What an address not listed in memory reads as: the contents load leaves outside the image with the standard glyph
table, that table from 0x000 and 0 elsewhere (spec/10_state.md R25, spec/20_memory.md R35; log 10). It is a convention of
the list and fixes no parameter: load with another glyph table lists the bytes that differ. -/
def unlistedByte (a : Nat) : Byte := glyphTable.getD a 0

end Sys2Proof.Machine
end

