-- ==== Sys2Proof/Machine/State.lean ====
section
/-! DEFINITION. The state of the machine (spec/10_state.md R10 to R26) as plain data, with what the frame sequencer and
the ports keep (spec/60_exceptions.md R114 to R126; log 1), the reasons a step can stop, and the state after reset. -/

namespace Sys2Proof.Machine

/-- The sixteen general registers `V[0..15]` (R11). -/
abbrev RegFile := Vector Byte 16

/-- The keypad, bit `k` key `k`: the "16-bit keypad state register" (spec/00_scope.md R2 (8), R17; log 24). -/
abbrev Keys := BitVec 16

/-- The 64 x 32 one-bit display (R18; log 24): row `y` is one 64-bit word, its bit `x` the pixel of column `x`. -/
abbrev Display := Vector (BitVec 64) 32

/-- `run_state` (R19). -/
inductive RunState where
  | running
  | paused
  | halted
  deriving DecidableEq, Repr

/-- `audio_gate` (R21). -/
inductive AudioGate where
  | on
  | off
  deriving DecidableEq, Repr

/-- `fault`: why the machine halted (R22, R110). A fault of the CORE is recorded in State, and its entry is a next state
(R111); it is not a stop of the model. -/
inductive FaultCode where
  /-- Code 0: no fault. -/
  | none
  /-- Code 1: CALL with 12 entries on the stack. -/
  | stackOverflow
  /-- Code 2: RET with an empty stack. -/
  | stackUnderflow
  /-- Code 3: a fetch with `PC > 0xFFE`. -/
  | fetchBounds
  /-- Code 4: a data access above 0xFFF. -/
  | dataBounds
  deriving DecidableEq, Repr

/-- A control command (R125). -/
inductive Command where
  | none
  | pause
  | resume
  | reset
  | quit
  deriving DecidableEq, Repr

/-- What the outside world presents between steps (R114): at a frame boundary one command and the 16 key bits
(R118, R123, R125), or a load by the host (R126). -/
inductive Input where
  | frame (cmd : Command) (keys : Keys)
  | load (image : List Byte)
  deriving DecidableEq, Repr

/-- What the core hands to its collaborators: the display (R122), the audio gate (R120). -/
inductive Output where
  | present (display : Display)
  | gate (g : AudioGate)
  deriving DecidableEq, Repr

/-- Where the frame sequencer stands (R118, log 2): between two frames, or inside a frame with `left` steps of its
batch still to run. -/
inductive Phase where
  | between
  | batch (left : Nat)
  deriving DecidableEq, Repr

/-- Why a step of the model stops without a next state. None of these is a fault code of the core. -/
inductive Fault where
  /-- Raised by `step` of a Halted machine when no input waits: "stuck, no transition but a host load"
  (spec/93_implementation_defined.md part 2 row 9, R113; log 12). Safe: no state is claimed where the core has none. -/
  | halted
  /-- Raised by `step` of a Paused machine when no input waits: "in any other run state no step happens" (R60), and only
  a frame can end the pause (R117; log 13). Safe: the core does nothing there either. -/
  | awaitingFrame
  /-- Raised by `step` when the next input is a load of an image above capacity: `ImageTooLarge`, "no machine is
  created" (R126, D24; log 14). Safe: there is no state after it. -/
  | imageTooLarge
  deriving DecidableEq, Repr

/-- Why an instruction has no meaning. No arm of `exec` uses it any more. -/
inductive Refusal where
  /-- Raised by an arm of `exec` whose instruction has no meaning yet. Safe: the model stops. -/
  | notModelled (mnemonic : String)
  deriving DecidableEq, Repr

/-- The bytes of memory that differ from `unlistedByte`, by rising address (log 10; the form is `Memory.wf`). -/
abbrev Memory := List Host.Cell

/-- The machine: its parameters, the record of R10, then the model's own fields (log 1). -/
structure State where
  /-- `ENTRY` and `GLYPHS` (spec/00_scope.md R4), read by load and written by no transition: "Configuration does not change
  while a machine exists" (spec/60_exceptions.md R127; log 25). The model's own field. -/
  params : Params
  /-- `memory[0..4095]` (R23, R30). -/
  mem : Memory
  /-- `display[0..2047]` (R18). -/
  display : Display
  /-- `V[0..15]`; `V[15]` is the flag register (R11, R12). -/
  v : RegFile
  /-- `I` (R13). -/
  i : Word
  /-- `PC` (R14). -/
  pc : Word
  /-- `stack`, the newest entry first, so its length is `SP` (R15; log 11). -/
  stack : List Word
  /-- `DT`, the delay timer (R16). -/
  dt : Byte
  /-- `ST`, the sound timer (R16). -/
  st : Byte
  /-- `keypad[0..15]`, bit `k` set when key `k` is down (R17). -/
  keypad : Keys
  /-- `run_state` (R19). -/
  runState : RunState
  /-- `redraw_pending` (R20). -/
  redrawPending : Bool
  /-- `audio_gate` (R21). -/
  audioGate : AudioGate
  /-- `fault` (R22). -/
  fault : FaultCode
  /-- The image retained for soft reset (R24 (c), R130). The model's own field. -/
  image : List Byte
  /-- Where the frame sequencer stands (R118). The model's own field. -/
  phase : Phase
  /-- The inputs not yet taken, the oldest first (R114). The model's own field. -/
  inputs : List Input
  /-- The outputs emitted, the newest first (R120, R122). The model's own field. -/
  outputs : List Output
  /-- How many random bytes have been drawn (R124). The model's own field. -/
  draws : Nat
  deriving DecidableEq, Repr

/-- A display with every pixel 0. -/
def blankDisplay : Display := Vector.replicate 32 0

/-- The machine with the standard parameters right after load of the empty image (R25, R130; vector LO1; log 16): nothing listed in memory, one
Present of the blank display emitted (R122). The model's own fields: no retained byte, between frames, no input waiting,
no byte drawn. -/
def State.reset : State where
  params := .standard
  mem := []
  display := blankDisplay
  v := Vector.replicate 16 0
  i := 0
  pc := Params.standard.entry.setWidth 16
  stack := []
  dt := 0
  st := 0
  keypad := 0
  runState := .running
  redrawPending := false
  audioGate := .off
  fault := .none
  image := []
  phase := .between
  inputs := []
  outputs := [.present blankDisplay]
  draws := 0

end Sys2Proof.Machine
end

