-- ==== Sys2Proof/Machine/Ops.lean ====
section
/-! DEFINITION. The shared operations over memory, registers, stack and display; the bounds check; instruction fetch;
fault entry; load. Every meaning is written over these. -/

namespace Sys2Proof.Machine

/-- The three outcomes of an instruction or a step of this machine. -/
abbrev Result := Host.Outcome State Fault Refusal

/-! ## Memory (spec/20_memory.md R30 to R35) -/

/-- `memory[a]` (R30). -/
def Memory.read : Memory → Nat → Byte
  | [], a => unlistedByte a
  | (b, w) :: rest, a => if a = b then w else Memory.read rest a

/-- `memory[a] <- v`, keeping the canonical form: a byte equal to what an unlisted address reads as is not listed. -/
def Memory.write : Memory → Nat → Byte → Memory
  | [], a, v => if v = unlistedByte a then [] else [(a, v)]
  | (b, w) :: rest, a, v =>
    if a < b then (if v = unlistedByte a then (b, w) :: rest else (a, v) :: (b, w) :: rest)
    else if a = b then (if v = unlistedByte a then rest else (a, v) :: rest)
    else (b, w) :: Memory.write rest a v

/-- The canonical form from address `lo` on: addresses rising, within memory, no entry equal to the unlisted byte. -/
def Memory.wfFrom : Nat → Memory → Bool
  | _, [] => true
  | lo, (a, v) :: rest => decide (lo ≤ a) && decide (a ≤ addrMax) && decide (v ≠ unlistedByte a) && Memory.wfFrom (a + 1) rest

/-- The canonical form of memory. -/
def Memory.wf (m : Memory) : Bool := Memory.wfFrom 0 m

/-- `n` consecutive bytes from address `a`. -/
def Memory.readMany (m : Memory) (a : Nat) : Nat → List Byte
  | 0 => []
  | n + 1 => m.read a :: m.readMany (a + 1) n

/-- Consecutive bytes stored from address `a`, the first one first (R38: in the order the pseudocode gives). -/
def Memory.writeMany (m : Memory) (a : Nat) : List Byte → Memory
  | [] => m
  | v :: vs => (m.write a v).writeMany (a + 1) vs

/-- Memory after load, in the order of spec/70_reset_and_hazards.md R130: the glyph table from address 0, then the image
from `ENTRY`. The other bytes are 0, as unlisted, and all 80 bytes of the table are written. -/
def Memory.afterLoad (p : Params) (image : List Byte) : Memory :=
  (Memory.writeMany [] 0 p.glyphs.toList).writeMany p.entry.toNat image

/-- The bounds check of the data primitives, for `n` bytes from `a`, made before anything changes: no address that would
be accessed exceeds 0xFFF (R31, D14). No byte, no check (spec/42_display.md R86 corner case 1). -/
def inBounds (a n : Nat) : Bool := n == 0 || decide (a + n - 1 ≤ addrMax)

/-- `MemRead` of `n` bytes from `a`: `none` where an access would be out of bounds (R31). -/
def State.memRead (s : State) (a n : Nat) : Option (List Byte) :=
  if inBounds a n then some (s.mem.readMany a n) else none

/-- `MemWrite` of bytes from `a`: `none`, with nothing written, where an access would be out of bounds (R31, D14). -/
def State.memWrite (s : State) (a : Nat) (vs : List Byte) : Option State :=
  if inBounds a vs.length then some { s with mem := s.mem.writeMany a vs } else none

/-- `Fetch(addr)`: the big-endian word at `addr`; `none` when `addr + 1 > 0xFFF` (R32). -/
def State.fetch (s : State) (a : Nat) : Option Word :=
  if a + 1 ≤ addrMax then some (s.mem.read a ++ s.mem.read (a + 1)) else none

/-! ## Registers (spec/10_state.md R11 to R17) -/

/-- `V[x]`. -/
def State.reg (s : State) (x : RegIdx) : Byte := s.v[x.val]

/-- `V[x] <- b`. -/
def State.setReg (s : State) (x : RegIdx) (b : Byte) : State := { s with v := s.v.set x.val b }

/-- `VF`, the flag register `V[15]` (R12). -/
abbrev vf : RegIdx := 15

/-- `I <- a`. -/
def State.setI (s : State) (a : Word) : State := { s with i := a }

/-- `PC <- a`. -/
def State.setPc (s : State) (a : Word) : State := { s with pc := a }

/-- `DT <- b`. -/
def State.setDt (s : State) (b : Byte) : State := { s with dt := b }

/-- `ST <- b`. -/
def State.setSt (s : State) (b : Byte) : State := { s with st := b }

/-- `PC <- (PC + 2) mod 65536`: the advance of every step (spec/40_step_and_control_flow.md R60), and a taken skip. -/
def State.advance (s : State) : State := { s with pc := s.pc + 2 }

/-- `PC <- (PC - 2) mod 65536` (spec/43_keypad_and_timers.md R92). -/
def State.rewind (s : State) : State := { s with pc := s.pc - 2 }

/-- A taken skip (R65 to R68, R90, R91): the next word is passed over when `c` holds. -/
def State.skipIf (s : State) (c : Bool) : State := if c then s.advance else s

/-- `V[0..k-1] <- bs`, the first byte into `V[0]`; bytes after the sixteenth have no register
(spec/44_index_and_memory.md R105). -/
def RegFile.load (v : RegFile) (k : Nat) : List Byte → RegFile
  | [] => v
  | b :: bs => RegFile.load (v.setIfInBounds k b) (k + 1) bs

/-- Load the registers from `V[0]` on (R105). -/
def State.loadRegs (s : State) (bs : List Byte) : State := { s with v := RegFile.load s.v 0 bs }

/-- `V[0..x]` as bytes, `V[0]` first (R104). -/
def State.regsUpTo (s : State) (x : RegIdx) : List Byte := s.v.toList.take (x.val + 1)

/-- The class-8 order of writes (spec/41_alu.md R72): the result into `V[x]`, the flag into `V[15]` last. -/
def State.setResultFlag (s : State) (x : RegIdx) (r f : Byte) : State := (s.setReg x r).setReg vf f

/-! ## The call stack (R15) -/

/-- `SP`: the number of entries (R15). -/
def State.sp (s : State) : Nat := s.stack.length

/-- `stack[k]`, for `k < SP` (R15). -/
def State.stackEntry (s : State) (k : Nat) : Option Word := s.stack.reverse[k]?

/-- `stack[SP] <- a; SP <- SP + 1`. -/
def State.push (s : State) (a : Word) : State := { s with stack := a :: s.stack }

/-- `SP <- SP - 1; PC <- stack[SP]`, for a stack whose newest entry is `a` (spec/40_step_and_control_flow.md R62). -/
def State.popTo (s : State) (a : Word) (rest : List Word) : State := { s with stack := rest, pc := a }

/-! ## The display (R18) -/

/-- `display[k]`: pixel column `k mod 64`, row `k div 64` (R18). -/
def Display.pixel (d : Display) (k : Nat) : Bool := (d[k / dispW]?.getD 0).getLsbD (k % dispW)

/-- `display[k] <- display[k] ^ 1`. -/
def Display.flip (d : Display) (k : Nat) : Display :=
  d.setIfInBounds (k / dispW) (d[k / dispW]?.getD 0 ^^^ BitVec.twoPow 64 (k % dispW))

/-- `redraw_pending <- 1` with a new display (R20, R85, R86). -/
def State.redraw (s : State) (d : Display) : State := { s with display := d, redrawPending := true }

/-! ## The random source (spec/60_exceptions.md R124) -/

/-- The state after one draw; the byte drawn is `Config.draw8 s.draws` (log 5). -/
def State.drawn (s : State) : State := { s with draws := s.draws + 1 }

/-! ## Fault entry (spec/60_exceptions.md R111) -/

/-- `raise F`, from the state after the `PC` advance with no other effect of the instruction: `fault <- F`,
`run_state <- Halted`, and the frame ends (log 17). Nothing is saved elsewhere, control goes nowhere. There is no return
from it (R113). -/
def State.raise (s : State) (f : FaultCode) : State := { s with fault := f, runState := .halted, phase := .between }

/-- The numeric code of a fault (R22, R110). -/
def FaultCode.code : FaultCode → Nat
  | .none => 0
  | .stackOverflow => 1
  | .stackUnderflow => 2
  | .fetchBounds => 3
  | .dataBounds => 4

/-! ## Output events -/

/-- `emit e` (R120, R122). -/
def State.emit (s : State) (e : Output) : State := { s with outputs := e :: s.outputs }

/-! ## Load (spec/70_reset_and_hazards.md R130) -/

/-- Why a load fails (R126). -/
inductive LoadError where
  /-- `ImageTooLarge`: the image exceeds capacity. -/
  | imageTooLarge
  deriving DecidableEq, Repr

/-- The state after a successful load of `image` (R25, R130). The record of R10 is set wholesale and the image retained;
the parameters stay, and the ports keep what they hold: the inputs not yet taken, the outputs emitted, with one Present of the blank display added,
and the random source, which a reset does not reseed (R124; log 19). -/
def State.loaded (s : State) (image : List Byte) : State where
  params := s.params
  mem := Memory.afterLoad s.params image
  display := blankDisplay
  v := Vector.replicate 16 0
  i := 0
  pc := s.params.entry.setWidth 16
  stack := []
  dt := 0
  st := 0
  keypad := 0
  runState := .running
  redrawPending := false
  audioGate := .off
  fault := .none
  image := image
  phase := .between
  inputs := s.inputs
  outputs := .present blankDisplay :: s.outputs
  draws := s.draws

/-- `load(image)`: fails when the image exceeds capacity (R126, R130). -/
def State.load (s : State) (image : List Byte) : Except LoadError State :=
  if image.length ≤ s.params.capacity then .ok (s.loaded image) else .error .imageTooLarge

/-- The first load, with parameters `p`: the machine it creates, or `ImageTooLarge` and no machine (R126, R130; log 25). -/
def State.boot (p : Params) (image : List Byte) : Except LoadError State :=
  ({ State.reset with params := p, outputs := [] } : State).load image

end Sys2Proof.Machine
end

