-- ==== Sys2Proof/Machine/Flags.lean ====
section
/-! DEFINITION. The flag values (spec/10_state.md R12, spec/41_alu.md R77 to R83): "a flag value is always exactly 0 or 1
in an 8-bit register". Sums and differences are computed on naturals and compared before they are narrowed. -/

namespace Sys2Proof.Machine

/-- A flag as the byte written to `VF` (R83 (9)). -/
def flagByte (f : Bool) : Byte := if f then 1 else 0

/-- ADD Vx,Vy: "carry if sum>255" (R77). -/
def carryFlag (a b : Byte) : Byte := flagByte (decide (a.toNat + b.toNat > 255))

/-- SUB, SUBN: "no-borrow flag = minuend≥subtrahend" (R78, R80). -/
def noBorrowFlag (minuend subtrahend : Byte) : Byte := flagByte (decide (minuend.toNat ≥ subtrahend.toNat))

/-- SHR: bit 0 of the source before the shift (R79). -/
def shrFlag (v : Byte) : Byte := flagByte (v.getLsbD 0)

/-- SHL: bit 7 of the source before the shift (R81). -/
def shlFlag (v : Byte) : Byte := flagByte (v.getLsbD 7)

end Sys2Proof.Machine
end

