-- ==== Sys2Proof/Machine/Operands.lean ====
section
/-! DEFINITION. The operand forms: the shift source, the key index, the sprite origin and extent, the addresses, and the
BCD digits. -/

namespace Sys2Proof.Machine

/-- The operand of SHR and SHL: `V[X]` or `V[Y]` by `SHIFT_SRC` (spec/41_alu.md R79, R81; log 6). -/
def shiftOperand (x y : RegIdx) (s : State) : Byte :=
  match Config.shiftSrc with
  | .x => s.reg x
  | .y => s.reg y

/-- `NNN` widened to 16 bits (spec/30_encoding.md R48). -/
def zextAddr (nnn : Addr12) : Word := nnn.setWidth 16

/-- A register value widened to 16 bits (R48). -/
def zextByte (b : Byte) : Word := b.setWidth 16

/-- The base address of a data access, `I` as an unbounded natural (spec/20_memory.md R31). -/
def State.base (s : State) : Nat := s.i.toNat

/-- `k <- V[X] & 0x0F` (spec/43_keypad_and_timers.md R90). -/
def keyIndex (b : Byte) : RegIdx := (b.extractLsb' 0 4).toFin

/-- `keypad[k]` (spec/10_state.md R17). -/
def State.keyDown (s : State) (k : RegIdx) : Bool := s.keypad.getLsbD k.val

/-- The keys, lowest index first. -/
def allKeys : List RegIdx := [0, 1, 2, 3, 4, 5, 6, 7] ++ [8, 9, 10, 11, 12, 13, 14, 15]

/-- The smallest key that is down (spec/43_keypad_and_timers.md R92). -/
def State.lowestKey (s : State) : Option RegIdx := allKeys.find? s.keyDown

/-- `x0 <- V[X] mod 64` (spec/42_display.md R86). -/
def originX (b : Byte) : Nat := b.toNat % dispW

/-- `y0 <- V[Y] mod 32` (R86). -/
def originY (b : Byte) : Nat := b.toNat % dispH

/-- `rows <- min(N, 32 - y0)`: the rows that fit (R86). -/
def spriteRows (n : Nibble) (y0 : Nat) : Nat := min n.toNat (dispH - y0)

/-- `cols <- min(8, 64 - x0)`: the columns that fit (R86). -/
def spriteCols (x0 : Nat) : Nat := min 8 (dispW - x0)

/-- The three decimal digits of a byte, hundreds first (spec/44_index_and_memory.md R103). -/
def bcdDigits (b : Byte) : List Byte :=
  [BitVec.ofNat 8 (b.toNat / 100), BitVec.ofNat 8 (b.toNat / 10 % 10), BitVec.ofNat 8 (b.toNat % 10)]

/-- The address of a glyph: `V[X] * 5`, no mask, no base (R102). -/
def glyphAddress (b : Byte) : Word := BitVec.ofNat 16 (b.toNat * glyphH)

end Sys2Proof.Machine
end

