-- ==== Sys2Proof/Machine/Alu.lean ====
section
/-! DEFINITION. Immediate loads, register ALU and random (spec/41_alu.md R70 to R83). Both operands are read before
anything is written, the flag is written last (R72). -/

namespace Sys2Proof.Machine

/-- LD Vx, NN (R70). -/
def execLdImm (x : RegIdx) (nn : Byte) (s : State) : Result := .next (s.setReg x nn)

/-- ADD Vx, NN (R71): modulo 256, no flag. -/
def execAddImm (x : RegIdx) (nn : Byte) (s : State) : Result := .next (s.setReg x (s.reg x + nn))

/-- LD Vx, Vy (R73). -/
def execLdReg (x y : RegIdx) (s : State) : Result := .next (s.setReg x (s.reg y))

/-- OR Vx, Vy (R74): no flag. -/
def execOrReg (x y : RegIdx) (s : State) : Result := .next (s.setReg x (s.reg x ||| s.reg y))

/-- AND Vx, Vy (R75): no flag. -/
def execAndReg (x y : RegIdx) (s : State) : Result := .next (s.setReg x (s.reg x &&& s.reg y))

/-- XOR Vx, Vy (R76): no flag. -/
def execXorReg (x y : RegIdx) (s : State) : Result := .next (s.setReg x (s.reg x ^^^ s.reg y))

/-- ADD Vx, Vy (R77). -/
def execAddReg (x y : RegIdx) (s : State) : Result :=
  .next (s.setResultFlag x (s.reg x + s.reg y) (carryFlag (s.reg x) (s.reg y)))

/-- SUB Vx, Vy (R78). -/
def execSubReg (x y : RegIdx) (s : State) : Result :=
  .next (s.setResultFlag x (s.reg x - s.reg y) (noBorrowFlag (s.reg x) (s.reg y)))

/-- SHR Vx, Vy (R79). -/
def execShrReg (x y : RegIdx) (s : State) : Result :=
  .next (s.setResultFlag x (shiftOperand x y s >>> 1) (shrFlag (shiftOperand x y s)))

/-- SUBN Vx, Vy (R80). -/
def execSubnReg (x y : RegIdx) (s : State) : Result :=
  .next (s.setResultFlag x (s.reg y - s.reg x) (noBorrowFlag (s.reg y) (s.reg x)))

/-- SHL Vx, Vy (R81). -/
def execShlReg (x y : RegIdx) (s : State) : Result :=
  .next (s.setResultFlag x (shiftOperand x y s <<< 1) (shlFlag (shiftOperand x y s)))

/-- RND Vx, NN (R82): one free byte is drawn (R124; log 5). -/
def execRnd (x : RegIdx) (nn : Byte) (s : State) : Result := .next (s.drawn.setReg x (Config.draw8 s.draws &&& nn))

end Sys2Proof.Machine
end

