-- ==== Sys2Proof/Machine/Control.lean ====
section
/-! DEFINITION. Control transfer (spec/40_step_and_control_flow.md R61 to R69). A meaning is run on the state after the
`PC` advance of R60, so `s.pc` is the address of the following instruction. -/

namespace Sys2Proof.Machine

/-- NOP.unknown: nothing (R61). -/
def execUnknown (s : State) : Result := .next s

/-- RET (R62): pops the stack into `PC`; `StackUnderflow` when it is empty. -/
def execRet (s : State) : Result :=
  match s.stack with
  | [] => .next (s.raise .stackUnderflow)
  | a :: rest => .next (s.popTo a rest)

/-- JP NNN (R63). -/
def execJp (nnn : Addr12) (s : State) : Result := .next (s.setPc (zextAddr nnn))

/-- CALL NNN (R64): pushes the advanced `PC`; `StackOverflow` when 12 entries are in use. -/
def execCall (nnn : Addr12) (s : State) : Result :=
  if s.sp < stackDepth then .next ((s.push s.pc).setPc (zextAddr nnn)) else .next (s.raise .stackOverflow)

/-- SE Vx, NN (R65). -/
def execSeImm (x : RegIdx) (nn : Byte) (s : State) : Result := .next (s.skipIf (s.reg x == nn))

/-- SNE Vx, NN (R66). -/
def execSneImm (x : RegIdx) (nn : Byte) (s : State) : Result := .next (s.skipIf (s.reg x != nn))

/-- SE Vx, Vy (R67). -/
def execSeReg (x y : RegIdx) (s : State) : Result := .next (s.skipIf (s.reg x == s.reg y))

/-- SNE Vx, Vy (R68). -/
def execSneReg (x y : RegIdx) (s : State) : Result := .next (s.skipIf (s.reg x != s.reg y))

/-- JP V0, NNN (R69): the sum is not reduced to 12 bits. -/
def execJpV0 (nnn : Addr12) (s : State) : Result := .next (s.setPc (zextByte (s.reg 0) + zextAddr nnn))

end Sys2Proof.Machine
end

