-- ==== Sys2Proof/Machine/Devices.lean ====
section
/-! DEFINITION. The keypad and timer instructions (spec/43_keypad_and_timers.md R90 to R95). -/

namespace Sys2Proof.Machine

/-- SKP Vx (R90). -/
def execSkp (x : RegIdx) (s : State) : Result := .next (s.skipIf (s.keyDown (keyIndex (s.reg x))))

/-- SKNP Vx (R91). -/
def execSknp (x : RegIdx) (s : State) : Result := .next (s.skipIf (!s.keyDown (keyIndex (s.reg x))))

/-- LD Vx, K (R92): the lowest key that is down, or back to this instruction with nothing changed. -/
def execLdVxK (x : RegIdx) (s : State) : Result :=
  match s.lowestKey with
  | some k => .next (s.setReg x (BitVec.ofNat 8 k.val))
  | none => .next s.rewind

/-- LD Vx, DT (R93). -/
def execLdVxDt (x : RegIdx) (s : State) : Result := .next (s.setReg x s.dt)

/-- LD DT, Vx (R94). -/
def execLdDtVx (x : RegIdx) (s : State) : Result := .next (s.setDt (s.reg x))

/-- LD ST, Vx (R95): the audio gate is not changed. -/
def execLdStVx (x : RegIdx) (s : State) : Result := .next (s.setSt (s.reg x))

end Sys2Proof.Machine
end

