-- ==== Sys2Proof/Machine/Graphics.lean ====
section
/-! DEFINITION. The display instructions (spec/42_display.md R85 to R87): the sprite rasteriser as the loops of R86 over a
canvas, the display together with the collision bit. -/

namespace Sys2Proof.Machine

/-- The display and the collision bit while a sprite is drawn (R86). -/
structure Canvas where
  display : Display
  collision : Bool
  deriving DecidableEq, Repr

/-- The inner step of R86 for a set sprite bit on pixel `k`: note a collision, then flip the pixel. -/
def Canvas.plot (c : Canvas) (k : Nat) : Canvas where
  display := c.display.flip k
  collision := c.collision || c.display.pixel k

/-- The loop over the columns `col .. col + n - 1` of one sprite row `b` on display row `y` (R86, R87: bit 7 is the
leftmost pixel). -/
def Canvas.drawRow (x0 y : Nat) (b : Byte) (col : Nat) : Nat → Canvas → Canvas
  | 0, c => c
  | n + 1, c =>
    Canvas.drawRow x0 y b (col + 1) n (if b.getLsbD (7 - col) then c.plot (y * dispW + (x0 + col)) else c)

/-- The loop over the rows: one byte a row, the first on display row `y` (R86, R87). -/
def Canvas.drawRows (x0 cols y : Nat) : List Byte → Canvas → Canvas
  | [], c => c
  | b :: bs, c => Canvas.drawRows x0 cols (y + 1) bs (Canvas.drawRow x0 y b 0 cols c)

/-- CLS (R85). -/
def execCls (s : State) : Result := .next (s.redraw blankDisplay)

/-- DRW Vx, Vy, N (R86): the coordinates are read first; the addresses of the rows that fit are checked before any change
(clipped rows are not read); `VF` is written last, and a redraw is pending. -/
def execDrw (x y : RegIdx) (n : Nibble) (s : State) : Result :=
  let x0 := originX (s.reg x)
  let y0 := originY (s.reg y)
  match s.memRead s.base (spriteRows n y0) with
  | none => .next (s.raise .dataBounds)
  | some bytes =>
    let c := Canvas.drawRows x0 (spriteCols x0) y0 bytes ⟨s.display, false⟩
    .next ((s.redraw c.display).setReg vf (flagByte c.collision))

end Sys2Proof.Machine
end

