-- ==== Sys2Proof/Machine/Index.lean ====
section
/-! DEFINITION. The index register and the memory instructions (spec/44_index_and_memory.md R100 to R105). An access out
of bounds raises `DataBounds` with no other effect (spec/20_memory.md R31, D14). `I` is never modified by a store or a
load. -/

namespace Sys2Proof.Machine

/-- LD I, NNN (R100). -/
def execLdI (nnn : Addr12) (s : State) : Result := .next (s.setI (zextAddr nnn))

/-- ADD I, Vx (R101): 16 bits, no flag, never masked to 12 bits. -/
def execAddI (x : RegIdx) (s : State) : Result := .next (s.setI (s.i + zextByte (s.reg x)))

/-- LD F, Vx (R102). -/
def execLdF (x : RegIdx) (s : State) : Result := .next (s.setI (glyphAddress (s.reg x)))

/-- A store of bytes at `I`, or `DataBounds` with no byte written (R103, R104). -/
def storeAtI (bytes : List Byte) (s : State) : Result :=
  match s.memWrite s.base bytes with
  | none => .next (s.raise .dataBounds)
  | some t => .next t

/-- LD B, Vx (R103): hundreds, tens, ones at `I`, `I+1`, `I+2`. -/
def execLdB (x : RegIdx) (s : State) : Result := storeAtI (bcdDigits (s.reg x)) s

/-- LD [I], Vx (R104): `V[0..X]` at `I` on. -/
def execStoreRegs (x : RegIdx) (s : State) : Result := storeAtI (s.regsUpTo x) s

/-- LD Vx, [I] (R105): `V[0..X]` from `I` on. -/
def execLoadRegs (x : RegIdx) (s : State) : Result :=
  match s.memRead s.base (x.val + 1) with
  | none => .next (s.raise .dataBounds)
  | some bytes => .next (s.loadRegs bytes)

end Sys2Proof.Machine
end

