-- ==== Sys2Proof/Machine/Sequencer.lean ====
section
/-! DEFINITION. The frame sequencer, the timer unit and the ports (spec/60_exceptions.md R114 to R126): the parts of a
frame before and after its batch, and which agent moves next. -/

namespace Sys2Proof.Machine

/-! ## Timers and audio gate (R120, R121) -/

/-- A timer decrement: floor at 0 (R120). -/
def countDown (b : Byte) : Byte := if b.toNat > 0 then b - 1 else 0

/-- The gate from the sound timer after its decrement (R120, R121). -/
def gateOf (st : Byte) : AudioGate := if st.toNat > 0 then .on else .off

/-- `tick_timers` (R120): both timers count down, the gate is latched and emitted. -/
def State.tickTimers (s : State) : State :=
  { s with
    dt := countDown s.dt
    st := countDown s.st
    audioGate := gateOf (countDown s.st)
    outputs := .gate (gateOf (countDown s.st)) :: s.outputs }

/-- Phase (e) of R118: if a redraw is pending, present the display and clear the flag (R122). -/
def State.presentPending (s : State) : State :=
  if s.redrawPending then { s.emit (.present s.display) with redrawPending := false } else s

/-- Phases (d) and (e) of R118, and the end of the frame. -/
def State.frameEnd (s : State) : State := { s.tickTimers.presentPending with phase := .between }

/-! ## The top of a frame (R117, R118, R125) -/

/-- The effect of a command on a machine that is not Halted (R117). Soft reset is load of the retained image
(spec/70_reset_and_hazards.md R131; log 18). -/
def State.command (s : State) : Command → State
  | .none => s
  | .pause => { s with runState := .paused }
  | .resume => { s with runState := .running }
  | .reset => s.loaded s.image
  | .quit => { s with runState := .halted }

/-- `keypad[k] <- keys[k]` for every key (R123). -/
def State.sampleKeys (s : State) (keys : Keys) : State := { s with keypad := keys }

/-- Phases (a) and (b) of R118 with a batch of `n` steps to follow: the command; the end of the frame after Quit; the
keys; the end of the frame while Paused. A Halted machine sees nothing (R113). -/
def State.frameTop (n : Nat) (cmd : Command) (keys : Keys) (s : State) : State :=
  if s.runState = .halted then s
  else if cmd = .quit then { s.command .quit with phase := .between }
  else
    let t := (s.command cmd).sampleKeys keys
    if t.runState = .paused then { t with phase := .between } else { t with phase := .batch n }

/-- The machine takes one input (R114): a frame boundary with its command and keys, or a host load; a load of an image
above capacity creates no machine (R126; log 14). -/
def State.accept (s : State) : Input → Result
  | .frame cmd keys => .next (s.frameTop stepsPerFrame cmd keys)
  | .load image =>
    match s.load image with
    | .ok t => .next t
    | .error .imageTooLarge => .fault .imageTooLarge

/-! ## Which agent moves next (log 2) -/

/-- The agent a step belongs to. -/
inductive Turn where
  /-- The executor runs one instruction. -/
  | instruction
  /-- The batch is done: the sequencer ticks and presents. -/
  | frameEnd
  /-- An input lands, between frames. -/
  | input (e : Input) (rest : List Input)
  /-- No agent can move. -/
  | stuck (f : Fault)
  deriving DecidableEq, Repr

/-- Between frames the oldest input is taken; with none waiting a Running machine is stepped directly (R60), a Paused one
waits, a Halted one is stuck. -/
def State.turnBetween (s : State) : Turn :=
  match s.inputs, s.runState with
  | e :: rest, _ => .input e rest
  | [], .running => .instruction
  | [], .paused => .stuck .awaitingFrame
  | [], .halted => .stuck .halted

/-- Inside a frame the batch runs, then the frame ends (R118). Only a Running machine is inside a frame. -/
def State.turn (s : State) : Turn :=
  match s.runState, s.phase with
  | .running, .batch 0 => .frameEnd
  | .running, .batch (_ + 1) => .instruction
  | _, _ => s.turnBetween

/-- One step of the batch is used up (R118); a step outside a frame uses up nothing. -/
def State.useStep (s : State) : State :=
  match s.phase with
  | .batch (n + 1) => { s with phase := .batch n }
  | _ => s

end Sys2Proof.Machine
end

