-- ==== Sys2Proof/Machine/Frame.lean ====
section
/-! DEFINITION. The instruction step of the executor (spec/40_step_and_control_flow.md R60) and the whole frame as one
transition (spec/60_exceptions.md R118). -/

namespace Sys2Proof.Machine

/-- `step` of R60: fetch at `PC`, advance, decode, dispatch; `FetchBounds` with `PC` unchanged when the fetch fails. -/
def State.executeNext (s : State) : Result :=
  match s.fetch s.pc.toNat with
  | none => .next (s.raise .fetchBounds)
  | some w => exec (decode w) s.advance

/-- Phase (c) of R118: `n` steps, cut short by a fault. -/
def State.runBatch : Nat → State → Result
  | 0, s => .next s
  | n + 1, s =>
    match ({ s with phase := .batch n } : State).executeNext with
    | .next t => if t.runState = .halted then .next t else t.runBatch n
    | stop => stop

/-- `frame(cmd, keys)` of R118 with a batch of `n` steps. -/
def State.frame (n : Nat) (cmd : Command) (keys : Keys) (s : State) : Result :=
  let top := s.frameTop n cmd keys
  if top.runState = .running then
    match top.runBatch n with
    | .next t => if t.runState = .halted then .next t else .next t.frameEnd
    | stop => stop
  else .next top

/-- Put a word where the next fetch reads it (big-endian, R32), and set what a Running machine needs to run it at once:
no frame in progress and no input waiting (log 23). -/
def State.placeWord (s : State) (w : Word) : State :=
  { s with
    mem := if s.pc.toNat + 1 ≤ addrMax then
        (s.mem.write s.pc.toNat (highByte w)).write (s.pc.toNat + 1) (lowByte w)
      else s.mem
    runState := .running
    phase := .between
    inputs := [] }

end Sys2Proof.Machine
end

