-- ==== Sys2Proof/Machine/Step.lean ====
section
/-! DEFINITION. One step of the machine: the agent whose turn it is moves (spec/60_exceptions.md R118, log 2). -/

namespace Sys2Proof.Machine

/-- One step: an instruction (R60), the end of a frame (R118 (d), (e)), or an input taken (R114). -/
def step (s : State) : Host.Outcome State Fault Refusal :=
  match s.turn with
  | .instruction => s.useStep.executeNext
  | .frameEnd => .next s.frameEnd
  | .input e rest => ({ s with inputs := rest } : State).accept e
  | .stuck f => .fault f

/-- The state whose next step fetches and runs the instruction of spec/opcode_table.json with bits `w` (log 4, log 23). -/
def State.withFetchWord (s : State) (nbits w : Nat) : State := s.placeWord (tableWord nbits w)

end Sys2Proof.Machine
end

