-- ==== Sys2Proof/Safety.lean ====
section
/-! DEFINITION. What a safe state is, the invariant of the machine, and the words the statements use for what an
instruction leaves unchanged. -/

namespace Sys2Proof

/-! ## Which instruction may write what -/

/-- `r` is a destination operand of the instruction: `V[X]` of the register-writing instructions, `V[0..X]` of
LD Vx,[I] (spec/44_index_and_memory.md R105). -/
def Instr.hasDest : Instr → RegIdx → Bool
  | .ldImm x _, r | .addImm x _, r | .ldReg x _, r | .orReg x _, r | .andReg x _, r | .xorReg x _, r
  | .addReg x _, r | .subReg x _, r | .shrReg x _, r | .subnReg x _, r | .shlReg x _, r | .rnd x _, r
  | .ldVxDt x, r | .ldVxK x, r => r == x
  | .loadRegs x, r => decide (r ≤ x)
  | _, _ => false

/-- The instructions that write `VF` as a side effect: "exactly: ADD Vx,Vy, SUB, SHR, SUBN, SHL and DRW"
(spec/10_state.md R12). -/
def Instr.writesFlag : Instr → Bool
  | .addReg _ _ | .subReg _ _ | .shrReg _ _ | .subnReg _ _ | .shlReg _ _ | .drw _ _ _ => true
  | _ => false

/-- The instructions that store to memory (spec/20_memory.md R30). -/
def Instr.stores : Instr → Bool
  | .ldB _ | .storeRegs _ => true
  | _ => false

/-- The instructions that change the display or mark a redraw (spec/10_state.md R18, R20). -/
def Instr.draws : Instr → Bool
  | .cls | .drw _ _ _ => true
  | _ => false

/-- The instructions that write `I` (R13). -/
def Instr.writesI : Instr → Bool
  | .ldI _ | .addI _ | .ldF _ => true
  | _ => false

/-- The instructions that write `PC` after the advance of R60 (R14). -/
def Instr.writesPc : Instr → Bool
  | .ret | .jp _ | .call _ | .seImm _ _ | .sneImm _ _ | .seReg _ _ | .sneReg _ _ | .jpV0 _ | .skp _ | .sknp _
  | .ldVxK _ => true
  | _ => false

namespace Machine

/-- The invariant of spec/10_state.md R26, read on the state, with the model's own clauses: the canonical form of memory
(log 10), the retained image within capacity (spec/70_reset_and_hazards.md R131), and a frame in progress only while
Running (spec/60_exceptions.md R118, log 2). -/
structure State.Inv (s : State) : Prop where
  /-- Memory is in canonical form and lists no address above 0xFFF (R26 (1)). -/
  mem : s.mem.wf = true
  /-- `0 <= SP <= 12` (R26 (2)). -/
  sp : s.sp ≤ stackDepth
  /-- A return address is at most 0x1000, the address after a CALL at 0xFFE (R62). -/
  stack : ∀ a ∈ s.stack, a.toNat ≤ 0x1000
  /-- `PC <= 0x10FE` (R26 (8), R14). -/
  pc : s.pc.toNat ≤ 0x10FE
  /-- `fault != None` implies `run_state = Halted` (R26 (5)). -/
  fault : s.fault ≠ .none → s.runState = .halted
  /-- The retained image fitted when it was loaded (R131). -/
  image : s.image.length ≤ s.params.capacity
  /-- Only a Running machine is inside a frame (R118). -/
  phase : s.phase ≠ .between → s.runState = .running

/-- A safe state: no fault recorded (R22, R110, spec/70_reset_and_hazards.md R135: a fault is not a success). -/
def State.Safe (s : State) : Prop := s.fault = .none

/-- `t` is reached from `s` by steps of the machine. -/
inductive Reaches (s : State) : State → Prop where
  | start : Reaches s s
  | next {t u : State} (h : Reaches s t) (hs : step t = .next u) : Reaches s u

/-- `k` steps of the machine, stopping at the first stop. -/
def runSteps : Nat → State → Result
  | 0, s => .next s
  | k + 1, s =>
    match step s with
    | .next t => runSteps k t
    | stop => stop

/-! ## Frames: what may differ between the state before and the state after -/

/-- Every register outside `rs` is unchanged. -/
def RegsKeep (rs : List RegIdx) (s t : State) : Prop := ∀ r, r ∉ rs → t.reg r = s.reg r

/-- Every byte of memory outside the `n` bytes from `a` reads as before. -/
def MemKeepsOutside (a n : Nat) (s t : State) : Prop := ∀ c, c < a ∨ a + n ≤ c → t.mem.read c = s.mem.read c

/-- Every byte of memory reads as before. -/
def MemKeeps (s t : State) : Prop := ∀ c, t.mem.read c = s.mem.read c

/-- Only registers of `rs` may differ: every other register, every byte of memory and every other field of State (`PC`,
`I`, stack, timers, keypad, display, run state, fault and the model's own fields) are as before. -/
def OnlyRegs (rs : List RegIdx) (s t : State) : Prop := RegsKeep rs s t ∧ MemKeeps s t ∧ t = { s with v := t.v }

/-- Only `PC` may differ. -/
def OnlyPc (s t : State) : Prop := RegsKeep [] s t ∧ MemKeeps s t ∧ t = { s with pc := t.pc }

/-- Only `I` may differ. -/
def OnlyI (s t : State) : Prop := RegsKeep [] s t ∧ MemKeeps s t ∧ t = { s with i := t.i }

/-- Only the `n` bytes of memory from `a` may differ. -/
def OnlyMem (a n : Nat) (s t : State) : Prop := RegsKeep [] s t ∧ MemKeepsOutside a n s t ∧ t = { s with mem := t.mem }

/-- `t` is `s` after fault entry with `f` (R111): the fault recorded, Halted, no frame in progress, nothing else changed. -/
def Faulted (f : FaultCode) (s t : State) : Prop :=
  t.fault = f ∧ t.runState = .halted ∧ RegsKeep [] s t ∧ MemKeeps s t ∧
    t = { s with fault := f, runState := .halted, phase := .between }

/-! ## Sprites, pixel by pixel -/

/-- Pixel `(px, py)`: column `px`, row `py` (R18). -/
def State.pixelAt (s : State) (px py : Nat) : Bool := s.display.pixel (py * dispW + px)

/-- Whether the sprite of DRW Vx, Vy, N covers pixel `(px, py)` with a set bit: the pixel is column `px - x0` of row
`py - y0` of the `N`-byte sprite at `I`, bit 7 leftmost (spec/42_display.md R87), with the origin wrapped into the grid
(R86). A pixel of the grid is `px < 64`, `py < 32`, so clipping is nothing but this. -/
def State.spriteCovers (s : State) (x y : RegIdx) (n : Nibble) (px py : Nat) : Bool :=
  let x0 := (s.reg x).toNat % dispW
  let y0 := (s.reg y).toNat % dispH
  decide (x0 ≤ px) && decide (px < x0 + 8) && decide (y0 ≤ py) && decide (py < y0 + n.toNat) &&
    (s.mem.read (s.base + (py - y0))).getLsbD (7 - (px - x0))

/-- The rows of the sprite that fit are all within memory, so DRW raises no fault (R86). -/
def State.spriteInBounds (s : State) (y : RegIdx) (n : Nibble) : Prop :=
  ∀ r, r < n.toNat → (s.reg y).toNat % dispH + r < dispH → s.base + r ≤ addrMax

/-! ## Accesses above memory -/

/-- The condition of `DataBounds` (spec/60_exceptions.md R110), instruction by instruction: an address `I + k` the
instruction would access exceeds 0xFFF (spec/42_display.md R86, spec/44_index_and_memory.md R103 to R105). -/
def State.dataOutOfBounds (s : State) : Instr → Prop
  | .drw _ y n => ¬s.spriteInBounds y n
  | .ldB _ => 0xFFF < s.base + 2
  | .storeRegs x => 0xFFF < s.base + x.val
  | .loadRegs x => 0xFFF < s.base + x.val
  | _ => False

/-! ## The state after load -/

/-- `t` holds what load of `image` with parameters `p` leaves in the record of spec/10_state.md R10 (R25,
spec/70_reset_and_hazards.md R130), memory in its canonical form, the image retained and no frame in progress. The image
is copied last, so it wins where it meets the glyph table. -/
structure State.JustLoaded (t : State) (p : Params) (image : List Byte) : Prop where
  params : t.params = p
  imageBytes : ∀ j, j < image.length → some (t.mem.read (p.entry.toNat + j)) = image[j]?
  glyphBytes : ∀ a, a < 80 → a < p.entry.toNat ∨ p.entry.toNat + image.length ≤ a →
    some (t.mem.read a) = p.glyphs.toList[a]?
  otherBytes : ∀ a, 80 ≤ a → a < p.entry.toNat ∨ p.entry.toNat + image.length ≤ a → t.mem.read a = 0
  memory : t.mem.wf = true
  registers : ∀ r, t.reg r = 0
  pixels : ∀ px py, t.pixelAt px py = false
  index : t.i = 0
  pc : t.pc.toNat = p.entry.toNat
  stack : t.sp = 0
  timers : t.dt = 0 ∧ t.st = 0
  keys : t.keypad = 0
  running : t.runState = .running
  noRedraw : t.redrawPending = false
  gate : t.audioGate = .off
  noFault : t.fault = .none
  retained : t.image = image
  phase : t.phase = .between

/-! ## The instruction a step runs -/

/-- The next step runs one instruction: a Running machine, inside a batch with a step left, or between frames with no
input waiting (R60, R118, log 2). -/
def State.runsInstruction (s : State) : Prop :=
  s.runState = .running ∧ ((s.phase = .between ∧ s.inputs = []) ∨ ∃ n, s.phase = .batch (n + 1))

end Machine

end Sys2Proof
end

