-- ==== Sys2Proof/Certificates/Slice0/Obligations.lean ====
section
/-! DEFINITION. The statements for the provers, each from numbered rules of spec/. An instruction runs on the state after the
`PC` advance (spec/40_step_and_control_flow.md R60), so in a statement about `exec i s`, `s.pc` is the address of the
following instruction. -/

open Sys2Proof Sys2Proof.Machine

/-! ## Encoding (spec/30_encoding.md) -/

/-- Every well-formed instruction, at every operand value, is read back from its word (R46, R47, R49). -/
def Obligations.DecodeOfEncodeIsIdentity : Prop :=
  ∀ i : Instr, i.wf = true → decode (encode i) = i

/-- Every word is the encoding of the well-formed instruction it decodes to: no bit is dropped (R46, R51). -/
def Obligations.EncodeOfDecodeIsIdentity : Prop :=
  ∀ w : Word, (decode w).wf = true ∧ encode (decode w) = w

/-- R49: 34 rows, no word selects two of them, and a word that selects a row decodes to that row's instruction. -/
def Obligations.DecodeFollowsOpcodeMap : Prop :=
  opcodeRows.length = 34 ∧
  (∀ w : Word, ∀ r₁ ∈ opcodeRows, ∀ r₂ ∈ opcodeRows, r₁.selects w = true → r₂.selects w = true → r₁ = r₂) ∧
  (∀ w : Word, ∀ r ∈ opcodeRows, r.selects w = true → (decode w).mnemonic = r.mnemonic)

/-- The unknown words are those of R50's table, and those that select no row of R49 (R51). -/
def Obligations.UnknownWordsSelectNoRow : Prop :=
  ∀ w : Word, (decode w = .unknown w ↔ isUnknownWord w = true) ∧
    (isUnknownWord w = true ↔ ∀ r ∈ opcodeRows, r.selects w = false)

/-- Words of the spec's worked examples and vectors, one of every format (R46, R47, R49). -/
def Obligations.WorkedExampleWordsDecode : Prop :=
  decode 0x6005 = .ldImm 0 0x05 ∧ decode 0x6102 = .ldImm 1 0x02 ∧ decode 0x8014 = .addReg 0 1 ∧
  decode 0x00E0 = .cls ∧ decode 0x00EE = .ret ∧ decode 0x2210 = .call 0x210 ∧ decode 0xD012 = .drw 0 1 2 ∧
  decode 0xF265 = .loadRegs 2 ∧ decode 0xE3A1 = .sknp 3 ∧ decode 0x0123 = .unknown 0x0123 ∧
  decodeBytes [0x80, 0x14] = .ok (.addReg 0 1, [])

/-! ## The step (spec/40_step_and_control_flow.md R60) -/

/-- The bytes at `PC` decode to `i`: the step is `exec i` after the advance of `PC` by 2, one step of the batch used up. -/
def Obligations.StepRunsDecodedInstruction : Prop :=
  ∀ (s : State) (i : Instr), s.runsInstruction → s.pc.toNat ≤ 0xFFE →
    decodeBytes [s.mem.read s.pc.toNat, s.mem.read (s.pc.toNat + 1)] = .ok (i, []) →
    step s = exec i { s.useStep with pc := s.pc + 2 }

/-- A fetch with `PC > 0xFFE` faults with `PC` unchanged (R60, spec/60_exceptions.md R110, R111, spec/20_memory.md R32; the
halt is the spec's decision D6, log 21). -/
def Obligations.FetchAboveMemoryFaults : Prop :=
  ∀ s : State, s.runsInstruction → 0xFFE < s.pc.toNat →
    ∃ t, step s = .next t ∧ Faulted .fetchBounds s t ∧ t.pc = s.pc

/-- A word placed where the next fetch reads it is the instruction the next step runs (log 23). -/
def Obligations.PlacedWordRuns : Prop :=
  ∀ (s : State) (w : Word), s.mem.wf = true → s.pc.toNat ≤ 0xFFE →
    step (s.withFetchWord 16 w.toNat) =
      exec (decode w) { s.withFetchWord 16 w.toNat with pc := s.pc + 2 }

/-- Self-modifying code: bytes stored by LD [I],Vx and by LD B,Vx are what the next fetch from there reads, the first byte
the high one (spec/20_memory.md R32, R40). -/
def Obligations.StoreIsSeenByNextFetch : Prop :=
  ∀ (s : State) (x : RegIdx), s.mem.wf = true →
    (s.i.toNat + x.val ≤ 0xFFF → ∃ t, exec (.storeRegs x) s = .next t ∧
      ∀ k k' : RegIdx, k'.val = k.val + 1 → k' ≤ x →
        t.fetch (s.i.toNat + k.val) = some (wordOfBytes (s.reg k) (s.reg k'))) ∧
    (s.i.toNat + 2 ≤ 0xFFF → ∃ t, exec (.ldB x) s = .next t ∧
      t.fetch s.i.toNat = some (wordOfBytes (BitVec.ofNat 8 ((s.reg x).toNat / 100))
        (BitVec.ofNat 8 ((s.reg x).toNat / 10 % 10))) ∧
      t.fetch (s.i.toNat + 1) = some (wordOfBytes (BitVec.ofNat 8 ((s.reg x).toNat / 10 % 10))
        (BitVec.ofNat 8 ((s.reg x).toNat % 10))))

/-! ## Control transfer (R61 to R69) -/

/-- R61: an unknown word does nothing, so the net effect of its step is the advance of `PC` by 2. The step of the batch it
uses up, and stepping outside a frame, are the model's own (log 2). -/
def Obligations.UnknownWordOnlyAdvances : Prop :=
  (∀ (w : Word) (s : State), exec (.unknown w) s = .next s) ∧
  (∀ (s : State) (w : Word), s.runsInstruction → s.fetch s.pc.toNat = some w → isUnknownWord w = true →
    step s = .next { s.useStep with pc := s.pc + 2 })

/-- R65 to R68: the four compare-and-skip instructions add 2 to `PC` exactly when they compare true, and change nothing
else. -/
def Obligations.CompareAndSkip : Prop :=
  ∀ (s : State) (x y : RegIdx) (nn : Byte),
    (∃ t, exec (.seImm x nn) s = .next t ∧ t.pc = (if s.reg x = nn then s.pc + 2 else s.pc) ∧ OnlyPc s t) ∧
    (∃ t, exec (.sneImm x nn) s = .next t ∧ t.pc = (if s.reg x = nn then s.pc else s.pc + 2) ∧ OnlyPc s t) ∧
    (∃ t, exec (.seReg x y) s = .next t ∧ t.pc = (if s.reg x = s.reg y then s.pc + 2 else s.pc) ∧ OnlyPc s t) ∧
    (∃ t, exec (.sneReg x y) s = .next t ∧ t.pc = (if s.reg x = s.reg y then s.pc else s.pc + 2) ∧ OnlyPc s t)

/-- R90, R91: SKP and SKNP test the key whose index is `V[X] & 0x0F`, and change nothing but `PC`. -/
def Obligations.KeySkip : Prop :=
  ∀ (s : State) (x : RegIdx),
    (∃ t, exec (.skp x) s = .next t ∧
      t.pc = (if s.keypad.getLsbD ((s.reg x).toNat % 16) = true then s.pc + 2 else s.pc) ∧ OnlyPc s t) ∧
    (∃ t, exec (.sknp x) s = .next t ∧
      t.pc = (if s.keypad.getLsbD ((s.reg x).toNat % 16) = true then s.pc else s.pc + 2) ∧ OnlyPc s t)

/-- R63, R69: JP sets `PC` to `NNN`; JP V0 sets it to `V[0] + NNN`, not reduced to 12 bits; nothing else changes. -/
def Obligations.JumpSetsPc : Prop :=
  ∀ (s : State) (nnn : Addr12),
    (∃ t, exec (.jp nnn) s = .next t ∧ t.pc.toNat = nnn.toNat ∧ OnlyPc s t) ∧
    (∃ t, exec (.jpV0 nnn) s = .next t ∧ t.pc.toNat = (s.reg 0).toNat + nnn.toNat ∧ OnlyPc s t)

/-- R64: CALL pushes the advanced `PC` and jumps while fewer than 12 entries are in use, and raises `StackOverflow` with
nothing pushed otherwise. Fault entry is R110, R111, the halt the spec's decision D5 (log 21); the phase it ends is the
model's own (log 17), and more than 12 entries, which no run reaches, overflow too (log 11). -/
def Obligations.CallPushesReturnAddress : Prop :=
  ∀ (s : State) (nnn : Addr12),
    (s.sp < 12 → ∃ t, exec (.call nnn) s = .next t ∧ t.sp = s.sp + 1 ∧ t.stackEntry s.sp = some s.pc ∧
      (∀ k, k < s.sp → t.stackEntry k = s.stackEntry k) ∧ t.pc.toNat = nnn.toNat ∧
      RegsKeep [] s t ∧ MemKeeps s t ∧ t = { s with stack := t.stack, pc := t.pc }) ∧
    (12 ≤ s.sp → ∃ t, exec (.call nnn) s = .next t ∧ Faulted .stackOverflow s t)

/-- R62: RET pops the newest entry into `PC`, and raises `StackUnderflow` when the stack is empty. Fault entry is R110,
R111, the halt the spec's decision D5 (log 21); the phase it ends is the model's own (log 17). -/
def Obligations.ReturnPopsStack : Prop :=
  ∀ s : State,
    (0 < s.sp → ∃ t, exec .ret s = .next t ∧ s.stackEntry (s.sp - 1) = some t.pc ∧ t.sp = s.sp - 1 ∧
      (∀ k, k < s.sp - 1 → t.stackEntry k = s.stackEntry k) ∧
      RegsKeep [] s t ∧ MemKeeps s t ∧ t = { s with stack := t.stack, pc := t.pc }) ∧
    (s.sp = 0 → ∃ t, exec .ret s = .next t ∧ Faulted .stackUnderflow s t)

/-- A RET right after a CALL that did not overflow comes back to the instruction after the CALL with everything as it was
(R62, R64). -/
def Obligations.ReturnUndoesCall : Prop :=
  ∀ (s : State) (nnn : Addr12), s.sp < 12 →
    ∃ t, exec (.call nnn) s = .next t ∧ exec .ret t = .next s

/-! ## Registers (spec/41_alu.md R70 to R83) -/

/-- R70, R71: LD Vx,NN and ADD Vx,NN write `V[X]` and nothing else; the sum wraps modulo 256 and no flag is touched. -/
def Obligations.ImmediateLoadAndAdd : Prop :=
  ∀ (s : State) (x : RegIdx) (nn : Byte),
    (∃ t, exec (.ldImm x nn) s = .next t ∧ t.reg x = nn ∧ OnlyRegs [x] s t) ∧
    (∃ t, exec (.addImm x nn) s = .next t ∧ (t.reg x).toNat = ((s.reg x).toNat + nn.toNat) % 256 ∧ OnlyRegs [x] s t)

/-- R73 to R76: copy, OR, AND, XOR write `V[X]` bit by bit from the two operands and nothing else. That `VF` keeps its value
is the spec's decision D28 (log 21). -/
def Obligations.CopyAndLogic : Prop :=
  ∀ (s : State) (x y : RegIdx),
    (∃ t, exec (.ldReg x y) s = .next t ∧ t.reg x = s.reg y ∧ OnlyRegs [x] s t) ∧
    (∃ t, exec (.orReg x y) s = .next t ∧
      (∀ k, (t.reg x).getLsbD k = ((s.reg x).getLsbD k || (s.reg y).getLsbD k)) ∧ OnlyRegs [x] s t) ∧
    (∃ t, exec (.andReg x y) s = .next t ∧
      (∀ k, (t.reg x).getLsbD k = ((s.reg x).getLsbD k && (s.reg y).getLsbD k)) ∧ OnlyRegs [x] s t) ∧
    (∃ t, exec (.xorReg x y) s = .next t ∧
      (∀ k, (t.reg x).getLsbD k = ((s.reg x).getLsbD k ^^ (s.reg y).getLsbD k)) ∧ OnlyRegs [x] s t)

/-- R77: ADD Vx,Vy leaves the sum modulo 256 in `V[X]` (unless `X = 15`) and the carry in `VF`, both computed from the
operands before the instruction. That the flag wins for `X = 15` is the spec's reading (R72, D35; log 21). -/
def Obligations.AddWritesSumAndCarry : Prop :=
  ∀ (s : State) (x y : RegIdx), ∃ t, exec (.addReg x y) s = .next t ∧
    (x ≠ 15 → (t.reg x).toNat = ((s.reg x).toNat + (s.reg y).toNat) % 256) ∧
    (t.reg 15).toNat = (if (s.reg x).toNat + (s.reg y).toNat > 255 then 1 else 0) ∧ OnlyRegs [x, 15] s t

/-- R78, R80: SUB leaves `V[X] - V[Y]`, SUBN `V[Y] - V[X]`, modulo 256, in `V[X]` (unless `X = 15`), and in `VF` whether the
minuend is at least the subtrahend. For `X = 15` as in the statement on ADD (D35). -/
def Obligations.SubtractWritesNoBorrow : Prop :=
  ∀ (s : State) (x y : RegIdx),
    (∃ t, exec (.subReg x y) s = .next t ∧
      (x ≠ 15 → (t.reg x).toNat = ((s.reg x).toNat + 256 - (s.reg y).toNat) % 256) ∧
      (t.reg 15).toNat = (if (s.reg x).toNat ≥ (s.reg y).toNat then 1 else 0) ∧ OnlyRegs [x, 15] s t) ∧
    (∃ t, exec (.subnReg x y) s = .next t ∧
      (x ≠ 15 → (t.reg x).toNat = ((s.reg y).toNat + 256 - (s.reg x).toNat) % 256) ∧
      (t.reg 15).toNat = (if (s.reg y).toNat ≥ (s.reg x).toNat then 1 else 0) ∧ OnlyRegs [x, 15] s t)

/-- R79, R81: SHR and SHL shift the operand `SHIFT_SRC` selects by one bit, zero fill, into `V[X]` (unless `X = 15`), and
leave the bit shifted out in `VF`. It holds for either value of the open parameter (D9; log 6). -/
def Obligations.ShiftWritesBitShiftedOut : Prop :=
  ∀ (s : State) (x y : RegIdx) (v : Byte), v = (if Config.shiftSrc = .y then s.reg y else s.reg x) →
    (∃ t, exec (.shrReg x y) s = .next t ∧ (x ≠ 15 → (t.reg x).toNat = v.toNat / 2) ∧
      (t.reg 15).toNat = v.toNat % 2 ∧ OnlyRegs [x, 15] s t) ∧
    (∃ t, exec (.shlReg x y) s = .next t ∧ (x ≠ 15 → (t.reg x).toNat = v.toNat * 2 % 256) ∧
      (t.reg 15).toNat = v.toNat / 128 ∧ OnlyRegs [x, 15] s t)

/-- R82, R124: RND leaves a drawn byte AND `NN` in `V[X]`. The byte is a free value and the draw counter the model's own
field (log 5): the statement holds for every byte, and the next draw is another one. -/
def Obligations.RandomByteIsMasked : Prop :=
  ∀ (s : State) (x : RegIdx) (nn : Byte), ∃ t, exec (.rnd x nn) s = .next t ∧
    t.reg x = Config.draw8 s.draws &&& nn ∧ t.reg x &&& ~~~nn = 0 ∧ t.draws = s.draws + 1 ∧
    RegsKeep [x] s t ∧ MemKeeps s t ∧ t = { s with v := t.v, draws := t.draws }

/-- R12: a register changes only as a destination operand, or as `VF` under one of the six flag-writing instructions. -/
def Obligations.OnlyFlagWritersTouchVF : Prop :=
  ∀ (i : Instr) (s t : State) (r : RegIdx), exec i s = .next t → t.reg r ≠ s.reg r →
    i.hasDest r = true ∨ (r = 15 ∧ i.writesFlag = true)

/-- R83 (9): after a flag-writing instruction that recorded no fault, `VF` is 0 or 1. -/
def Obligations.FlagIsZeroOrOne : Prop :=
  ∀ (i : Instr) (s t : State), i.writesFlag = true → exec i s = .next t → t.fault = .none →
    t.reg 15 = 0 ∨ t.reg 15 = 1

/-! ## Display (spec/42_display.md R85 to R87) -/

/-- R85: CLS clears every pixel, marks a redraw, and changes nothing else. -/
def Obligations.ClearScreen : Prop :=
  ∀ s : State, ∃ t, exec .cls s = .next t ∧ (∀ px py, t.pixelAt px py = false) ∧ t.redrawPending = true ∧
    RegsKeep [] s t ∧ MemKeeps s t ∧ t = { s with display := t.display, redrawPending := true }

/-- R86, R87: when the rows that fit lie in memory, DRW XORs exactly the pixels of the grid its sprite covers, and `VF` tells
whether one of them was set; otherwise it raises `DataBounds` with no other effect. The order of reads, the bit order and the
pre-check are the spec's decisions D12, D13, D14 (log 9, log 21). -/
def Obligations.DrawXorsCoveredPixels : Prop :=
  ∀ (s : State) (x y : RegIdx) (n : Nibble),
    (s.spriteInBounds y n → ∃ t, exec (.drw x y n) s = .next t ∧
      (∀ px py, px < 64 → py < 32 → t.pixelAt px py = (s.pixelAt px py ^^ s.spriteCovers x y n px py)) ∧
      ((∃ px py, px < 64 ∧ py < 32 ∧ s.pixelAt px py = true ∧ s.spriteCovers x y n px py = true) → t.reg 15 = 1) ∧
      ((∀ px py, px < 64 → py < 32 → s.pixelAt px py = true → s.spriteCovers x y n px py = false) → t.reg 15 = 0) ∧
      t.redrawPending = true ∧ RegsKeep [15] s t ∧ MemKeeps s t ∧
      t = { s with display := t.display, v := t.v, redrawPending := true }) ∧
    (¬s.spriteInBounds y n → ∃ t, exec (.drw x y n) s = .next t ∧ Faulted .dataBounds s t)

/-- "XOR self-inverse" (R86 corner case 7; property S3 of spec/95_test_vectors.md): the same sprite drawn twice restores the
display, and the second draw collides exactly when the sprite covers a pixel the first draw left set. -/
def Obligations.DrawTwiceRestoresDisplay : Prop :=
  ∀ (s : State) (x y : RegIdx) (n : Nibble), x ≠ 15 → y ≠ 15 → s.spriteInBounds y n →
    ∃ t u, exec (.drw x y n) s = .next t ∧ exec (.drw x y n) t = .next u ∧ u.display = s.display ∧
      (u.reg 15 = 1 ↔ ∃ px py, px < 64 ∧ py < 32 ∧ s.spriteCovers x y n px py = true ∧ t.pixelAt px py = true)

/-! ## Keypad and timers (spec/43_keypad_and_timers.md) -/

/-- R92: with no key down LD Vx,K goes back to its own address and changes nothing else; otherwise it loads the lowest key
that is down. -/
def Obligations.WaitForKey : Prop :=
  ∀ (s : State) (x : RegIdx),
    ((∀ k, k < 16 → s.keypad.getLsbD k = false) →
      ∃ t, exec (.ldVxK x) s = .next t ∧ t.pc = s.pc - 2 ∧ OnlyPc s t) ∧
    (∀ k, k < 16 → s.keypad.getLsbD k = true → (∀ j, j < k → s.keypad.getLsbD j = false) →
      ∃ t, exec (.ldVxK x) s = .next t ∧ (t.reg x).toNat = k ∧ OnlyRegs [x] s t)

/-- S5, R92 corner case 1: a step of LD Vx,K with no key down leaves the machine as it was, but for the step of the batch it
uses up. -/
def Obligations.BlockedWaitIsIdle : Prop :=
  ∀ (s : State) (x : RegIdx), s.runsInstruction → s.fetch s.pc.toNat = some (encode (.ldVxK x)) → s.keypad = 0 →
    step s = .next s.useStep

/-- R93 to R95: the three timer transfers. -/
def Obligations.TimerTransfers : Prop :=
  ∀ (s : State) (x : RegIdx),
    (∃ t, exec (.ldVxDt x) s = .next t ∧ t.reg x = s.dt ∧ OnlyRegs [x] s t) ∧
    (∃ t, exec (.ldDtVx x) s = .next t ∧ t.dt = s.reg x ∧ RegsKeep [] s t ∧ MemKeeps s t ∧ t = { s with dt := t.dt }) ∧
    (∃ t, exec (.ldStVx x) s = .next t ∧ t.st = s.reg x ∧ t.audioGate = s.audioGate ∧ RegsKeep [] s t ∧ MemKeeps s t ∧
      t = { s with st := t.st })

/-! ## Index and memory (spec/44_index_and_memory.md) -/

/-- R100, R101, R102: the three writers of `I`; the 16-bit add wraps modulo 65536, no register (so no flag) is touched, and
`V[X] * 5` has no mask and no base (the spec's decisions D7, D26; log 21). -/
def Obligations.IndexRegisterWrites : Prop :=
  ∀ (s : State) (x : RegIdx) (nnn : Addr12),
    (∃ t, exec (.ldI nnn) s = .next t ∧ t.i.toNat = nnn.toNat ∧ OnlyI s t) ∧
    (∃ t, exec (.addI x) s = .next t ∧ t.i.toNat = (s.i.toNat + (s.reg x).toNat) % 65536 ∧ OnlyI s t) ∧
    (∃ t, exec (.ldF x) s = .next t ∧ t.i.toNat = (s.reg x).toNat * 5 ∧ OnlyI s t)

/-- R103: LD B,Vx stores the three decimal digits at `I`, `I+1`, `I+2`, and raises `DataBounds` with no byte written when
`I + 2 > 0xFFF` (the fault and the pre-check are the spec's decisions D6, D14; log 21). -/
def Obligations.StoreBcd : Prop :=
  ∀ (s : State) (x : RegIdx), s.mem.wf = true →
    (s.i.toNat + 2 ≤ 0xFFF → ∃ t, exec (.ldB x) s = .next t ∧
      (t.mem.read s.i.toNat).toNat = (s.reg x).toNat / 100 ∧
      (t.mem.read (s.i.toNat + 1)).toNat = (s.reg x).toNat / 10 % 10 ∧
      (t.mem.read (s.i.toNat + 2)).toNat = (s.reg x).toNat % 10 ∧ OnlyMem s.i.toNat 3 s t) ∧
    (0xFFF < s.i.toNat + 2 → ∃ t, exec (.ldB x) s = .next t ∧ Faulted .dataBounds s t)

/-- R104: LD [I],Vx stores `V[0..X]` from `I` on, and raises `DataBounds` with no byte written when `I + X > 0xFFF`;
`I` stays (the spec's decisions D6, D14, D27; log 21). -/
def Obligations.DumpRegisters : Prop :=
  ∀ (s : State) (x : RegIdx), s.mem.wf = true →
    (s.i.toNat + x.val ≤ 0xFFF → ∃ t, exec (.storeRegs x) s = .next t ∧
      (∀ k : RegIdx, k ≤ x → t.mem.read (s.i.toNat + k.val) = s.reg k) ∧ OnlyMem s.i.toNat (x.val + 1) s t) ∧
    (0xFFF < s.i.toNat + x.val → ∃ t, exec (.storeRegs x) s = .next t ∧ Faulted .dataBounds s t)

/-- R105: LD Vx,[I] loads `V[0..X]` from `I` on, and raises `DataBounds` with no register changed when
`I + X > 0xFFF`; `I` stays (the spec's decisions D6, D14, D27; log 21). -/
def Obligations.LoadRegisters : Prop :=
  ∀ (s : State) (x : RegIdx),
    (s.i.toNat + x.val ≤ 0xFFF → ∃ t, exec (.loadRegs x) s = .next t ∧
      (∀ k : RegIdx, k ≤ x → t.reg k = s.mem.read (s.i.toNat + k.val)) ∧ (∀ k : RegIdx, x < k → t.reg k = s.reg k) ∧
      MemKeeps s t ∧ t = { s with v := t.v }) ∧
    (0xFFF < s.i.toNat + x.val → ∃ t, exec (.loadRegs x) s = .next t ∧ Faulted .dataBounds s t)

/-- S7 (R104, R105): a dump, any change of the registers from outside, then a load reproduces `V[0..X]`. -/
def Obligations.DumpThenLoadRoundTrip : Prop :=
  ∀ (s : State) (x : RegIdx) (v : RegFile), s.mem.wf = true → s.i.toNat + x.val ≤ 0xFFF →
    ∃ t u, exec (.storeRegs x) s = .next t ∧ exec (.loadRegs x) { t with v := v } = .next u ∧
      (∀ k : RegIdx, k ≤ x → u.reg k = s.reg k) ∧ (∀ k : RegIdx, x < k → u.reg k = v[k.val])

/-! ## Rules about every instruction -/

/-- No instruction stops the model: each ends in a next state on every state (R51: "no failure mode"; fault entry is a next
state, spec/60_exceptions.md R111), and so does a step that runs one. -/
def Obligations.EveryInstructionGoesOn : Prop :=
  (∀ (i : Instr) (s : State), ∃ t, exec i s = .next t) ∧ (∀ s : State, s.runsInstruction → ∃ t, step s = .next t)

/-- spec/60_exceptions.md R110, R111: an instruction either records no fault and leaves `run_state` alone, or it is one of
the table's with its condition met (for DRW, LD B, LD [I],Vx and LD Vx,[I] an address above 0xFFF), and the state is fault
entry from the state after the `PC` advance (the spec's decisions D5, D6, D14; log 21). -/
def Obligations.FaultsArePreciseAndListed : Prop :=
  ∀ (i : Instr) (s t : State), exec i s = .next t →
    (t.fault = s.fault ∧ t.runState = s.runState) ∨
    ((∃ nnn, i = .call nnn) ∧ 12 ≤ s.sp ∧ Faulted .stackOverflow s t) ∨
    (i = .ret ∧ s.sp = 0 ∧ Faulted .stackUnderflow s t) ∨
    (s.dataOutOfBounds i ∧ Faulted .dataBounds s t)

/-- The numeric codes of R110's table, code 0 for no fault, no code used twice (the spec's decision D15, log 21). -/
def Obligations.FaultCodesMatchTable : Prop :=
  FaultCode.none.code = 0 ∧ FaultCode.stackOverflow.code = 1 ∧ FaultCode.stackUnderflow.code = 2 ∧
  FaultCode.fetchBounds.code = 3 ∧ FaultCode.dataBounds.code = 4 ∧ ∀ f g : FaultCode, f.code = g.code → f = g

/-- spec/20_memory.md R30: only LD B,Vx and LD [I],Vx write memory. -/
def Obligations.OnlyStoresWriteMemory : Prop :=
  ∀ (i : Instr) (s t : State), exec i s = .next t → i.stores = false → t.mem = s.mem

/-- spec/10_state.md R18, R20: only CLS and DRW change the display or `redraw_pending`. -/
def Obligations.OnlyDrawingTouchesDisplay : Prop :=
  ∀ (i : Instr) (s t : State), exec i s = .next t → i.draws = false →
    t.display = s.display ∧ t.redrawPending = s.redrawPending

/-- spec/10_state.md R13 to R17, R21, R24, spec/60_exceptions.md R127: what no instruction, or only the named ones, may
write. -/
def Obligations.InstructionsLeaveTheRestAlone : Prop :=
  ∀ (i : Instr) (s t : State), exec i s = .next t →
    t.params = s.params ∧ t.keypad = s.keypad ∧ t.audioGate = s.audioGate ∧ t.image = s.image ∧
    t.inputs = s.inputs ∧ t.outputs = s.outputs ∧
    (t.dt ≠ s.dt → ∃ x, i = .ldDtVx x) ∧ (t.st ≠ s.st → ∃ x, i = .ldStVx x) ∧
    (t.stack ≠ s.stack → (∃ nnn, i = .call nnn) ∨ i = .ret) ∧ (t.draws ≠ s.draws → ∃ x nn, i = .rnd x nn) ∧
    (t.i ≠ s.i → i.writesI = true) ∧ (t.pc ≠ s.pc → i.writesPc = true)

/-! ## The frame sequencer (spec/60_exceptions.md) -/

/-- R117, R118 (a), (b), R123: what each command does at the top of a frame of a machine that is not Halted. The queue of
inputs and the phase are the model's own (log 2, log 3); the order is the spec's decision D17 (log 21). -/
def Obligations.FrameTopAppliesCommand : Prop :=
  ∀ (s : State) (keys : Keys) (rest : List Input) (cmd : Command), s.phase = .between → s.runState ≠ .halted →
    s.inputs = .frame cmd keys :: rest →
    (cmd = .quit → step s = .next { s with inputs := rest, runState := .halted }) ∧
    (cmd = .pause → step s = .next { s with inputs := rest, runState := .paused, keypad := keys }) ∧
    (cmd = .resume →
      step s = .next { s with inputs := rest, runState := .running, keypad := keys, phase := .batch stepsPerFrame }) ∧
    (cmd = .reset → step s = .next { ({ s with inputs := rest } : State).loaded s.image with
      keypad := keys, phase := .batch stepsPerFrame }) ∧
    (cmd = .none → s.runState = .paused → step s = .next { s with inputs := rest, keypad := keys }) ∧
    (cmd = .none → s.runState = .running →
      step s = .next { s with inputs := rest, keypad := keys, phase := .batch stepsPerFrame })

/-- R120, R118 (d), (e): when the batch is done the timers count down with floor 0, the gate follows the sound timer after
its decrement, and a pending redraw is presented and cleared; nothing else changes. The phase and the record of outputs are
the model's own (log 2, log 15). -/
def Obligations.FrameEndTicksAndPresents : Prop :=
  ∀ s : State, s.runState = .running → s.phase = .batch 0 → ∃ t, step s = .next t ∧
    t.dt.toNat = s.dt.toNat - 1 ∧ t.st.toNat = s.st.toNat - 1 ∧
    t.audioGate = (if t.st.toNat > 0 then .on else .off) ∧ t.redrawPending = false ∧ t.phase = .between ∧
    t.outputs = (if s.redrawPending = true then [.present s.display] else []) ++ .gate t.audioGate :: s.outputs ∧
    RegsKeep [] s t ∧ MemKeeps s t ∧
    t = { s with dt := t.dt, st := t.st, audioGate := t.audioGate, redrawPending := false, phase := .between,
                 outputs := t.outputs }

/-- R121: a sound timer of `n` keeps the gate On after each of the next `n - 1` ticks and Off after every later one. -/
def Obligations.GateIsOnForNMinusOneTicks : Prop :=
  ∀ (s : State) (k : Nat), 1 ≤ k →
    ((State.tickTimers^[k] s).audioGate = .on ↔ k < s.st.toNat) ∧
    (State.tickTimers^[k] s).st.toNat = s.st.toNat - k ∧ (State.tickTimers^[k] s).dt.toNat = s.dt.toNat - k

/-- R118: the steps of the machine, run from the top of a frame, are the frame as the spec writes it in one piece: at most
`STEPS_PER_FRAME + 2` of them, for every value of the open `IPS` (log 7). -/
def Obligations.StepsRefineFrame : Prop :=
  ∀ (s : State) (cmd : Command) (keys : Keys) (rest : List Input), s.phase = .between →
    s.inputs = .frame cmd keys :: rest →
    ∃ k, 1 ≤ k ∧ k ≤ stepsPerFrame + 2 ∧
      runSteps k s = ({ s with inputs := rest } : State).frame stepsPerFrame cmd keys

/-- R113: `Halted` is absorbing: with no input the machine is stuck, a frame (whatever its command) changes nothing, and only
a load goes on to another state (the spec's decision D16; the stop and the queue are the model's, log 3, log 12). -/
def Obligations.HaltedIsAbsorbing : Prop :=
  ∀ s : State, s.runState = .halted →
    (s.inputs = [] → step s = .fault .halted) ∧
    (∀ cmd keys rest, s.inputs = .frame cmd keys :: rest → step s = .next { s with inputs := rest }) ∧
    (∀ image rest t, s.inputs = .load image :: rest → step s = .next t → t.runState = .running ∧ t.fault = .none)

/-- Where a step of the model stops, and that it never refuses (R60's precondition, R113, R126; log 12, 13, 14). -/
def Obligations.StepStopsExactlyHere : Prop :=
  (∀ s : State, step s = .fault .halted ↔ s.runState = .halted ∧ s.inputs = []) ∧
  (∀ s : State, step s = .fault .awaitingFrame ↔ s.runState = .paused ∧ s.inputs = []) ∧
  (∀ s : State, step s = .fault .imageTooLarge ↔
    (s.runState = .running → s.phase = .between) ∧
      ∃ image rest, s.inputs = .load image :: rest ∧ s.params.capacity < image.length) ∧
  (∀ (s : State) (r : Refusal), step s ≠ .refused r)

/-! ## Load and reset (spec/70_reset_and_hazards.md) -/

/-- R130, R126, spec/10_state.md R25: a load between frames succeeds exactly up to capacity and leaves every field at its
reset value, for every `ENTRY` and every glyph table the machine was made with (log 25). The inputs left, the outputs and the
random source are the model's own (log 19). -/
def Obligations.LoadEstablishesResetState : Prop :=
  ∀ (s : State) (image : List Byte) (rest : List Input), s.phase = .between → s.inputs = .load image :: rest →
    (image.length ≤ memSize - s.params.entry.toNat → ∃ t, step s = .next t ∧ t.JustLoaded s.params image ∧
      t.outputs = .present t.display :: s.outputs ∧ t.inputs = rest ∧ t.draws = s.draws) ∧
    (memSize - s.params.entry.toNat < image.length → step s = .fault .imageTooLarge)

/-- R126, R130: the first load makes a machine exactly up to capacity, with any parameters it is given (spec/00_scope.md R4;
log 25). The empty queue, the record of outputs and the draw counter are the model's own (log 3, log 5, log 15). -/
def Obligations.BootTakesEveryParameter : Prop :=
  ∀ (p : Params) (image : List Byte),
    (image.length ≤ memSize - p.entry.toNat → ∃ t, State.boot p image = .ok t ∧ t.JustLoaded p image ∧
      t.outputs = [.present t.display] ∧ t.inputs = [] ∧ t.draws = 0) ∧
    (memSize - p.entry.toNat < image.length → State.boot p image = .error .imageTooLarge)

/-- R127: "Configuration does not change while a machine exists" (that it is a field is the model's choice, log 25). -/
def Obligations.ConfigurationNeverChanges : Prop :=
  ∀ s t : State, step s = .next t → t.params = s.params

/-- R131: Reset at a frame top is the load of the retained image, also from Paused; the frame goes on with the keys sampled
and a batch, and the random source is not reseeded (D17; the queue and the phase are the model's own, log 2, log 3, log 18). -/
def Obligations.SoftResetReloadsImage : Prop :=
  ∀ (s : State) (keys : Keys) (rest : List Input), s.phase = .between → s.runState ≠ .halted →
    s.inputs = .frame .reset keys :: rest →
    step s = .next { ({ s with inputs := rest } : State).loaded s.image with
      keypad := keys, phase := .batch stepsPerFrame }

/-- spec/10_state.md R25: the values of State.reset, the machine made by a load of the empty image (log 16: which image is
the model's choice) with `ENTRY = 0x200` and the glyph table of spec/20_memory.md R36 (general knowledge, log 8). -/
def Obligations.ResetHasLoadedValues : Prop :=
  State.boot .standard [] = .ok State.reset ∧ State.reset.params = .standard ∧ (∀ r, State.reset.reg r = 0) ∧
  State.reset.i = 0 ∧ State.reset.pc = 0x200 ∧ State.reset.sp = 0 ∧ State.reset.dt = 0 ∧ State.reset.st = 0 ∧
  State.reset.keypad = 0 ∧ State.reset.runState = .running ∧ State.reset.redrawPending = false ∧
  State.reset.audioGate = .off ∧ State.reset.fault = .none ∧ (∀ px py, State.reset.pixelAt px py = false) ∧
  (∀ a, State.reset.mem.read a = if a < 80 then glyphTable.getD a 0 else 0)

/-! ## Invariants -/

/-- The invariant holds at reset (spec/10_state.md R26). -/
def Obligations.ResetMeetsInvariant : Prop := State.reset.Inv

/-- Every step keeps the invariant, from every state that meets it (R26). -/
def Obligations.StepKeepsInvariant : Prop :=
  ∀ s t : State, s.Inv → step s = .next t → t.Inv

/-- Two states that meet the invariant and agree on every byte of memory, every register and every pixel are the same data
in memory, registers and display (the canonical form of memory, log 10). -/
def Obligations.EqualReadsAreEqualData : Prop :=
  ∀ s t : State, s.Inv → t.Inv → MemKeeps s t → RegsKeep [] s t →
    (∀ px py, px < 64 → py < 32 → t.pixelAt px py = s.pixelAt px py) →
    t.mem = s.mem ∧ t.v = s.v ∧ t.display = s.display
end

