-- ==== Sys2Proof/Laws/State.lean ====
section
/-! SUPPORT. One lemma per field per update of State, so that no proof unfolds a record update; and how the register read
`State.reg` sees each update. -/

namespace Sys2Proof.Machine

variable (s : State)

/-! ### setReg -/

@[simp] theorem State.setReg_params (x : RegIdx) (b : Byte) : (s.setReg x b).params = s.params := rfl
@[simp] theorem State.setReg_mem (x : RegIdx) (b : Byte) : (s.setReg x b).mem = s.mem := rfl
@[simp] theorem State.setReg_display (x : RegIdx) (b : Byte) : (s.setReg x b).display = s.display := rfl
@[simp] theorem State.setReg_v (x : RegIdx) (b : Byte) : (s.setReg x b).v = s.v.set x.val b := rfl
@[simp] theorem State.setReg_i (x : RegIdx) (b : Byte) : (s.setReg x b).i = s.i := rfl
@[simp] theorem State.setReg_pc (x : RegIdx) (b : Byte) : (s.setReg x b).pc = s.pc := rfl
@[simp] theorem State.setReg_stack (x : RegIdx) (b : Byte) : (s.setReg x b).stack = s.stack := rfl
@[simp] theorem State.setReg_dt (x : RegIdx) (b : Byte) : (s.setReg x b).dt = s.dt := rfl
@[simp] theorem State.setReg_st (x : RegIdx) (b : Byte) : (s.setReg x b).st = s.st := rfl
@[simp] theorem State.setReg_keypad (x : RegIdx) (b : Byte) : (s.setReg x b).keypad = s.keypad := rfl
@[simp] theorem State.setReg_runState (x : RegIdx) (b : Byte) : (s.setReg x b).runState = s.runState := rfl
@[simp] theorem State.setReg_redrawPending (x : RegIdx) (b : Byte) : (s.setReg x b).redrawPending = s.redrawPending := rfl
@[simp] theorem State.setReg_audioGate (x : RegIdx) (b : Byte) : (s.setReg x b).audioGate = s.audioGate := rfl
@[simp] theorem State.setReg_fault (x : RegIdx) (b : Byte) : (s.setReg x b).fault = s.fault := rfl
@[simp] theorem State.setReg_image (x : RegIdx) (b : Byte) : (s.setReg x b).image = s.image := rfl
@[simp] theorem State.setReg_phase (x : RegIdx) (b : Byte) : (s.setReg x b).phase = s.phase := rfl
@[simp] theorem State.setReg_inputs (x : RegIdx) (b : Byte) : (s.setReg x b).inputs = s.inputs := rfl
@[simp] theorem State.setReg_outputs (x : RegIdx) (b : Byte) : (s.setReg x b).outputs = s.outputs := rfl
@[simp] theorem State.setReg_draws (x : RegIdx) (b : Byte) : (s.setReg x b).draws = s.draws := rfl

/-! ### setResultFlag -/

@[simp] theorem State.setResultFlag_params (x : RegIdx) (r f : Byte) : (s.setResultFlag x r f).params = s.params := rfl
@[simp] theorem State.setResultFlag_mem (x : RegIdx) (r f : Byte) : (s.setResultFlag x r f).mem = s.mem := rfl
@[simp] theorem State.setResultFlag_display (x : RegIdx) (r f : Byte) : (s.setResultFlag x r f).display = s.display := rfl
@[simp] theorem State.setResultFlag_v (x : RegIdx) (r f : Byte) : (s.setResultFlag x r f).v = (s.v.set x.val r).set 15 f := rfl
@[simp] theorem State.setResultFlag_i (x : RegIdx) (r f : Byte) : (s.setResultFlag x r f).i = s.i := rfl
@[simp] theorem State.setResultFlag_pc (x : RegIdx) (r f : Byte) : (s.setResultFlag x r f).pc = s.pc := rfl
@[simp] theorem State.setResultFlag_stack (x : RegIdx) (r f : Byte) : (s.setResultFlag x r f).stack = s.stack := rfl
@[simp] theorem State.setResultFlag_dt (x : RegIdx) (r f : Byte) : (s.setResultFlag x r f).dt = s.dt := rfl
@[simp] theorem State.setResultFlag_st (x : RegIdx) (r f : Byte) : (s.setResultFlag x r f).st = s.st := rfl
@[simp] theorem State.setResultFlag_keypad (x : RegIdx) (r f : Byte) : (s.setResultFlag x r f).keypad = s.keypad := rfl
@[simp] theorem State.setResultFlag_runState (x : RegIdx) (r f : Byte) : (s.setResultFlag x r f).runState = s.runState := rfl
@[simp] theorem State.setResultFlag_redrawPending (x : RegIdx) (r f : Byte) : (s.setResultFlag x r f).redrawPending = s.redrawPending := rfl
@[simp] theorem State.setResultFlag_audioGate (x : RegIdx) (r f : Byte) : (s.setResultFlag x r f).audioGate = s.audioGate := rfl
@[simp] theorem State.setResultFlag_fault (x : RegIdx) (r f : Byte) : (s.setResultFlag x r f).fault = s.fault := rfl
@[simp] theorem State.setResultFlag_image (x : RegIdx) (r f : Byte) : (s.setResultFlag x r f).image = s.image := rfl
@[simp] theorem State.setResultFlag_phase (x : RegIdx) (r f : Byte) : (s.setResultFlag x r f).phase = s.phase := rfl
@[simp] theorem State.setResultFlag_inputs (x : RegIdx) (r f : Byte) : (s.setResultFlag x r f).inputs = s.inputs := rfl
@[simp] theorem State.setResultFlag_outputs (x : RegIdx) (r f : Byte) : (s.setResultFlag x r f).outputs = s.outputs := rfl
@[simp] theorem State.setResultFlag_draws (x : RegIdx) (r f : Byte) : (s.setResultFlag x r f).draws = s.draws := rfl

/-! ### loadRegs -/

@[simp] theorem State.loadRegs_params (bs : List Byte) : (s.loadRegs bs).params = s.params := rfl
@[simp] theorem State.loadRegs_mem (bs : List Byte) : (s.loadRegs bs).mem = s.mem := rfl
@[simp] theorem State.loadRegs_display (bs : List Byte) : (s.loadRegs bs).display = s.display := rfl
@[simp] theorem State.loadRegs_v (bs : List Byte) : (s.loadRegs bs).v = RegFile.load s.v 0 bs := rfl
@[simp] theorem State.loadRegs_i (bs : List Byte) : (s.loadRegs bs).i = s.i := rfl
@[simp] theorem State.loadRegs_pc (bs : List Byte) : (s.loadRegs bs).pc = s.pc := rfl
@[simp] theorem State.loadRegs_stack (bs : List Byte) : (s.loadRegs bs).stack = s.stack := rfl
@[simp] theorem State.loadRegs_dt (bs : List Byte) : (s.loadRegs bs).dt = s.dt := rfl
@[simp] theorem State.loadRegs_st (bs : List Byte) : (s.loadRegs bs).st = s.st := rfl
@[simp] theorem State.loadRegs_keypad (bs : List Byte) : (s.loadRegs bs).keypad = s.keypad := rfl
@[simp] theorem State.loadRegs_runState (bs : List Byte) : (s.loadRegs bs).runState = s.runState := rfl
@[simp] theorem State.loadRegs_redrawPending (bs : List Byte) : (s.loadRegs bs).redrawPending = s.redrawPending := rfl
@[simp] theorem State.loadRegs_audioGate (bs : List Byte) : (s.loadRegs bs).audioGate = s.audioGate := rfl
@[simp] theorem State.loadRegs_fault (bs : List Byte) : (s.loadRegs bs).fault = s.fault := rfl
@[simp] theorem State.loadRegs_image (bs : List Byte) : (s.loadRegs bs).image = s.image := rfl
@[simp] theorem State.loadRegs_phase (bs : List Byte) : (s.loadRegs bs).phase = s.phase := rfl
@[simp] theorem State.loadRegs_inputs (bs : List Byte) : (s.loadRegs bs).inputs = s.inputs := rfl
@[simp] theorem State.loadRegs_outputs (bs : List Byte) : (s.loadRegs bs).outputs = s.outputs := rfl
@[simp] theorem State.loadRegs_draws (bs : List Byte) : (s.loadRegs bs).draws = s.draws := rfl

/-! ### setI -/

@[simp] theorem State.setI_params (a : Word) : (s.setI a).params = s.params := rfl
@[simp] theorem State.setI_mem (a : Word) : (s.setI a).mem = s.mem := rfl
@[simp] theorem State.setI_display (a : Word) : (s.setI a).display = s.display := rfl
@[simp] theorem State.setI_v (a : Word) : (s.setI a).v = s.v := rfl
@[simp] theorem State.setI_i (a : Word) : (s.setI a).i = a := rfl
@[simp] theorem State.setI_pc (a : Word) : (s.setI a).pc = s.pc := rfl
@[simp] theorem State.setI_stack (a : Word) : (s.setI a).stack = s.stack := rfl
@[simp] theorem State.setI_dt (a : Word) : (s.setI a).dt = s.dt := rfl
@[simp] theorem State.setI_st (a : Word) : (s.setI a).st = s.st := rfl
@[simp] theorem State.setI_keypad (a : Word) : (s.setI a).keypad = s.keypad := rfl
@[simp] theorem State.setI_runState (a : Word) : (s.setI a).runState = s.runState := rfl
@[simp] theorem State.setI_redrawPending (a : Word) : (s.setI a).redrawPending = s.redrawPending := rfl
@[simp] theorem State.setI_audioGate (a : Word) : (s.setI a).audioGate = s.audioGate := rfl
@[simp] theorem State.setI_fault (a : Word) : (s.setI a).fault = s.fault := rfl
@[simp] theorem State.setI_image (a : Word) : (s.setI a).image = s.image := rfl
@[simp] theorem State.setI_phase (a : Word) : (s.setI a).phase = s.phase := rfl
@[simp] theorem State.setI_inputs (a : Word) : (s.setI a).inputs = s.inputs := rfl
@[simp] theorem State.setI_outputs (a : Word) : (s.setI a).outputs = s.outputs := rfl
@[simp] theorem State.setI_draws (a : Word) : (s.setI a).draws = s.draws := rfl

/-! ### setPc -/

@[simp] theorem State.setPc_params (a : Word) : (s.setPc a).params = s.params := rfl
@[simp] theorem State.setPc_mem (a : Word) : (s.setPc a).mem = s.mem := rfl
@[simp] theorem State.setPc_display (a : Word) : (s.setPc a).display = s.display := rfl
@[simp] theorem State.setPc_v (a : Word) : (s.setPc a).v = s.v := rfl
@[simp] theorem State.setPc_i (a : Word) : (s.setPc a).i = s.i := rfl
@[simp] theorem State.setPc_pc (a : Word) : (s.setPc a).pc = a := rfl
@[simp] theorem State.setPc_stack (a : Word) : (s.setPc a).stack = s.stack := rfl
@[simp] theorem State.setPc_dt (a : Word) : (s.setPc a).dt = s.dt := rfl
@[simp] theorem State.setPc_st (a : Word) : (s.setPc a).st = s.st := rfl
@[simp] theorem State.setPc_keypad (a : Word) : (s.setPc a).keypad = s.keypad := rfl
@[simp] theorem State.setPc_runState (a : Word) : (s.setPc a).runState = s.runState := rfl
@[simp] theorem State.setPc_redrawPending (a : Word) : (s.setPc a).redrawPending = s.redrawPending := rfl
@[simp] theorem State.setPc_audioGate (a : Word) : (s.setPc a).audioGate = s.audioGate := rfl
@[simp] theorem State.setPc_fault (a : Word) : (s.setPc a).fault = s.fault := rfl
@[simp] theorem State.setPc_image (a : Word) : (s.setPc a).image = s.image := rfl
@[simp] theorem State.setPc_phase (a : Word) : (s.setPc a).phase = s.phase := rfl
@[simp] theorem State.setPc_inputs (a : Word) : (s.setPc a).inputs = s.inputs := rfl
@[simp] theorem State.setPc_outputs (a : Word) : (s.setPc a).outputs = s.outputs := rfl
@[simp] theorem State.setPc_draws (a : Word) : (s.setPc a).draws = s.draws := rfl

/-! ### advance -/

@[simp] theorem State.advance_params : (s.advance).params = s.params := rfl
@[simp] theorem State.advance_mem : (s.advance).mem = s.mem := rfl
@[simp] theorem State.advance_display : (s.advance).display = s.display := rfl
@[simp] theorem State.advance_v : (s.advance).v = s.v := rfl
@[simp] theorem State.advance_i : (s.advance).i = s.i := rfl
@[simp] theorem State.advance_pc : (s.advance).pc = s.pc + 2 := rfl
@[simp] theorem State.advance_stack : (s.advance).stack = s.stack := rfl
@[simp] theorem State.advance_dt : (s.advance).dt = s.dt := rfl
@[simp] theorem State.advance_st : (s.advance).st = s.st := rfl
@[simp] theorem State.advance_keypad : (s.advance).keypad = s.keypad := rfl
@[simp] theorem State.advance_runState : (s.advance).runState = s.runState := rfl
@[simp] theorem State.advance_redrawPending : (s.advance).redrawPending = s.redrawPending := rfl
@[simp] theorem State.advance_audioGate : (s.advance).audioGate = s.audioGate := rfl
@[simp] theorem State.advance_fault : (s.advance).fault = s.fault := rfl
@[simp] theorem State.advance_image : (s.advance).image = s.image := rfl
@[simp] theorem State.advance_phase : (s.advance).phase = s.phase := rfl
@[simp] theorem State.advance_inputs : (s.advance).inputs = s.inputs := rfl
@[simp] theorem State.advance_outputs : (s.advance).outputs = s.outputs := rfl
@[simp] theorem State.advance_draws : (s.advance).draws = s.draws := rfl

/-! ### rewind -/

@[simp] theorem State.rewind_params : (s.rewind).params = s.params := rfl
@[simp] theorem State.rewind_mem : (s.rewind).mem = s.mem := rfl
@[simp] theorem State.rewind_display : (s.rewind).display = s.display := rfl
@[simp] theorem State.rewind_v : (s.rewind).v = s.v := rfl
@[simp] theorem State.rewind_i : (s.rewind).i = s.i := rfl
@[simp] theorem State.rewind_pc : (s.rewind).pc = s.pc - 2 := rfl
@[simp] theorem State.rewind_stack : (s.rewind).stack = s.stack := rfl
@[simp] theorem State.rewind_dt : (s.rewind).dt = s.dt := rfl
@[simp] theorem State.rewind_st : (s.rewind).st = s.st := rfl
@[simp] theorem State.rewind_keypad : (s.rewind).keypad = s.keypad := rfl
@[simp] theorem State.rewind_runState : (s.rewind).runState = s.runState := rfl
@[simp] theorem State.rewind_redrawPending : (s.rewind).redrawPending = s.redrawPending := rfl
@[simp] theorem State.rewind_audioGate : (s.rewind).audioGate = s.audioGate := rfl
@[simp] theorem State.rewind_fault : (s.rewind).fault = s.fault := rfl
@[simp] theorem State.rewind_image : (s.rewind).image = s.image := rfl
@[simp] theorem State.rewind_phase : (s.rewind).phase = s.phase := rfl
@[simp] theorem State.rewind_inputs : (s.rewind).inputs = s.inputs := rfl
@[simp] theorem State.rewind_outputs : (s.rewind).outputs = s.outputs := rfl
@[simp] theorem State.rewind_draws : (s.rewind).draws = s.draws := rfl

/-! ### setDt -/

@[simp] theorem State.setDt_params (b : Byte) : (s.setDt b).params = s.params := rfl
@[simp] theorem State.setDt_mem (b : Byte) : (s.setDt b).mem = s.mem := rfl
@[simp] theorem State.setDt_display (b : Byte) : (s.setDt b).display = s.display := rfl
@[simp] theorem State.setDt_v (b : Byte) : (s.setDt b).v = s.v := rfl
@[simp] theorem State.setDt_i (b : Byte) : (s.setDt b).i = s.i := rfl
@[simp] theorem State.setDt_pc (b : Byte) : (s.setDt b).pc = s.pc := rfl
@[simp] theorem State.setDt_stack (b : Byte) : (s.setDt b).stack = s.stack := rfl
@[simp] theorem State.setDt_dt (b : Byte) : (s.setDt b).dt = b := rfl
@[simp] theorem State.setDt_st (b : Byte) : (s.setDt b).st = s.st := rfl
@[simp] theorem State.setDt_keypad (b : Byte) : (s.setDt b).keypad = s.keypad := rfl
@[simp] theorem State.setDt_runState (b : Byte) : (s.setDt b).runState = s.runState := rfl
@[simp] theorem State.setDt_redrawPending (b : Byte) : (s.setDt b).redrawPending = s.redrawPending := rfl
@[simp] theorem State.setDt_audioGate (b : Byte) : (s.setDt b).audioGate = s.audioGate := rfl
@[simp] theorem State.setDt_fault (b : Byte) : (s.setDt b).fault = s.fault := rfl
@[simp] theorem State.setDt_image (b : Byte) : (s.setDt b).image = s.image := rfl
@[simp] theorem State.setDt_phase (b : Byte) : (s.setDt b).phase = s.phase := rfl
@[simp] theorem State.setDt_inputs (b : Byte) : (s.setDt b).inputs = s.inputs := rfl
@[simp] theorem State.setDt_outputs (b : Byte) : (s.setDt b).outputs = s.outputs := rfl
@[simp] theorem State.setDt_draws (b : Byte) : (s.setDt b).draws = s.draws := rfl

/-! ### setSt -/

@[simp] theorem State.setSt_params (b : Byte) : (s.setSt b).params = s.params := rfl
@[simp] theorem State.setSt_mem (b : Byte) : (s.setSt b).mem = s.mem := rfl
@[simp] theorem State.setSt_display (b : Byte) : (s.setSt b).display = s.display := rfl
@[simp] theorem State.setSt_v (b : Byte) : (s.setSt b).v = s.v := rfl
@[simp] theorem State.setSt_i (b : Byte) : (s.setSt b).i = s.i := rfl
@[simp] theorem State.setSt_pc (b : Byte) : (s.setSt b).pc = s.pc := rfl
@[simp] theorem State.setSt_stack (b : Byte) : (s.setSt b).stack = s.stack := rfl
@[simp] theorem State.setSt_dt (b : Byte) : (s.setSt b).dt = s.dt := rfl
@[simp] theorem State.setSt_st (b : Byte) : (s.setSt b).st = b := rfl
@[simp] theorem State.setSt_keypad (b : Byte) : (s.setSt b).keypad = s.keypad := rfl
@[simp] theorem State.setSt_runState (b : Byte) : (s.setSt b).runState = s.runState := rfl
@[simp] theorem State.setSt_redrawPending (b : Byte) : (s.setSt b).redrawPending = s.redrawPending := rfl
@[simp] theorem State.setSt_audioGate (b : Byte) : (s.setSt b).audioGate = s.audioGate := rfl
@[simp] theorem State.setSt_fault (b : Byte) : (s.setSt b).fault = s.fault := rfl
@[simp] theorem State.setSt_image (b : Byte) : (s.setSt b).image = s.image := rfl
@[simp] theorem State.setSt_phase (b : Byte) : (s.setSt b).phase = s.phase := rfl
@[simp] theorem State.setSt_inputs (b : Byte) : (s.setSt b).inputs = s.inputs := rfl
@[simp] theorem State.setSt_outputs (b : Byte) : (s.setSt b).outputs = s.outputs := rfl
@[simp] theorem State.setSt_draws (b : Byte) : (s.setSt b).draws = s.draws := rfl

/-! ### push -/

@[simp] theorem State.push_params (a : Word) : (s.push a).params = s.params := rfl
@[simp] theorem State.push_mem (a : Word) : (s.push a).mem = s.mem := rfl
@[simp] theorem State.push_display (a : Word) : (s.push a).display = s.display := rfl
@[simp] theorem State.push_v (a : Word) : (s.push a).v = s.v := rfl
@[simp] theorem State.push_i (a : Word) : (s.push a).i = s.i := rfl
@[simp] theorem State.push_pc (a : Word) : (s.push a).pc = s.pc := rfl
@[simp] theorem State.push_stack (a : Word) : (s.push a).stack = a :: s.stack := rfl
@[simp] theorem State.push_dt (a : Word) : (s.push a).dt = s.dt := rfl
@[simp] theorem State.push_st (a : Word) : (s.push a).st = s.st := rfl
@[simp] theorem State.push_keypad (a : Word) : (s.push a).keypad = s.keypad := rfl
@[simp] theorem State.push_runState (a : Word) : (s.push a).runState = s.runState := rfl
@[simp] theorem State.push_redrawPending (a : Word) : (s.push a).redrawPending = s.redrawPending := rfl
@[simp] theorem State.push_audioGate (a : Word) : (s.push a).audioGate = s.audioGate := rfl
@[simp] theorem State.push_fault (a : Word) : (s.push a).fault = s.fault := rfl
@[simp] theorem State.push_image (a : Word) : (s.push a).image = s.image := rfl
@[simp] theorem State.push_phase (a : Word) : (s.push a).phase = s.phase := rfl
@[simp] theorem State.push_inputs (a : Word) : (s.push a).inputs = s.inputs := rfl
@[simp] theorem State.push_outputs (a : Word) : (s.push a).outputs = s.outputs := rfl
@[simp] theorem State.push_draws (a : Word) : (s.push a).draws = s.draws := rfl

/-! ### popTo -/

@[simp] theorem State.popTo_params (a : Word) (rest : List Word) : (s.popTo a rest).params = s.params := rfl
@[simp] theorem State.popTo_mem (a : Word) (rest : List Word) : (s.popTo a rest).mem = s.mem := rfl
@[simp] theorem State.popTo_display (a : Word) (rest : List Word) : (s.popTo a rest).display = s.display := rfl
@[simp] theorem State.popTo_v (a : Word) (rest : List Word) : (s.popTo a rest).v = s.v := rfl
@[simp] theorem State.popTo_i (a : Word) (rest : List Word) : (s.popTo a rest).i = s.i := rfl
@[simp] theorem State.popTo_pc (a : Word) (rest : List Word) : (s.popTo a rest).pc = a := rfl
@[simp] theorem State.popTo_stack (a : Word) (rest : List Word) : (s.popTo a rest).stack = rest := rfl
@[simp] theorem State.popTo_dt (a : Word) (rest : List Word) : (s.popTo a rest).dt = s.dt := rfl
@[simp] theorem State.popTo_st (a : Word) (rest : List Word) : (s.popTo a rest).st = s.st := rfl
@[simp] theorem State.popTo_keypad (a : Word) (rest : List Word) : (s.popTo a rest).keypad = s.keypad := rfl
@[simp] theorem State.popTo_runState (a : Word) (rest : List Word) : (s.popTo a rest).runState = s.runState := rfl
@[simp] theorem State.popTo_redrawPending (a : Word) (rest : List Word) : (s.popTo a rest).redrawPending = s.redrawPending := rfl
@[simp] theorem State.popTo_audioGate (a : Word) (rest : List Word) : (s.popTo a rest).audioGate = s.audioGate := rfl
@[simp] theorem State.popTo_fault (a : Word) (rest : List Word) : (s.popTo a rest).fault = s.fault := rfl
@[simp] theorem State.popTo_image (a : Word) (rest : List Word) : (s.popTo a rest).image = s.image := rfl
@[simp] theorem State.popTo_phase (a : Word) (rest : List Word) : (s.popTo a rest).phase = s.phase := rfl
@[simp] theorem State.popTo_inputs (a : Word) (rest : List Word) : (s.popTo a rest).inputs = s.inputs := rfl
@[simp] theorem State.popTo_outputs (a : Word) (rest : List Word) : (s.popTo a rest).outputs = s.outputs := rfl
@[simp] theorem State.popTo_draws (a : Word) (rest : List Word) : (s.popTo a rest).draws = s.draws := rfl

/-! ### redraw -/

@[simp] theorem State.redraw_params (d : Display) : (s.redraw d).params = s.params := rfl
@[simp] theorem State.redraw_mem (d : Display) : (s.redraw d).mem = s.mem := rfl
@[simp] theorem State.redraw_display (d : Display) : (s.redraw d).display = d := rfl
@[simp] theorem State.redraw_v (d : Display) : (s.redraw d).v = s.v := rfl
@[simp] theorem State.redraw_i (d : Display) : (s.redraw d).i = s.i := rfl
@[simp] theorem State.redraw_pc (d : Display) : (s.redraw d).pc = s.pc := rfl
@[simp] theorem State.redraw_stack (d : Display) : (s.redraw d).stack = s.stack := rfl
@[simp] theorem State.redraw_dt (d : Display) : (s.redraw d).dt = s.dt := rfl
@[simp] theorem State.redraw_st (d : Display) : (s.redraw d).st = s.st := rfl
@[simp] theorem State.redraw_keypad (d : Display) : (s.redraw d).keypad = s.keypad := rfl
@[simp] theorem State.redraw_runState (d : Display) : (s.redraw d).runState = s.runState := rfl
@[simp] theorem State.redraw_redrawPending (d : Display) : (s.redraw d).redrawPending = true := rfl
@[simp] theorem State.redraw_audioGate (d : Display) : (s.redraw d).audioGate = s.audioGate := rfl
@[simp] theorem State.redraw_fault (d : Display) : (s.redraw d).fault = s.fault := rfl
@[simp] theorem State.redraw_image (d : Display) : (s.redraw d).image = s.image := rfl
@[simp] theorem State.redraw_phase (d : Display) : (s.redraw d).phase = s.phase := rfl
@[simp] theorem State.redraw_inputs (d : Display) : (s.redraw d).inputs = s.inputs := rfl
@[simp] theorem State.redraw_outputs (d : Display) : (s.redraw d).outputs = s.outputs := rfl
@[simp] theorem State.redraw_draws (d : Display) : (s.redraw d).draws = s.draws := rfl

/-! ### drawn -/

@[simp] theorem State.drawn_params : (s.drawn).params = s.params := rfl
@[simp] theorem State.drawn_mem : (s.drawn).mem = s.mem := rfl
@[simp] theorem State.drawn_display : (s.drawn).display = s.display := rfl
@[simp] theorem State.drawn_v : (s.drawn).v = s.v := rfl
@[simp] theorem State.drawn_i : (s.drawn).i = s.i := rfl
@[simp] theorem State.drawn_pc : (s.drawn).pc = s.pc := rfl
@[simp] theorem State.drawn_stack : (s.drawn).stack = s.stack := rfl
@[simp] theorem State.drawn_dt : (s.drawn).dt = s.dt := rfl
@[simp] theorem State.drawn_st : (s.drawn).st = s.st := rfl
@[simp] theorem State.drawn_keypad : (s.drawn).keypad = s.keypad := rfl
@[simp] theorem State.drawn_runState : (s.drawn).runState = s.runState := rfl
@[simp] theorem State.drawn_redrawPending : (s.drawn).redrawPending = s.redrawPending := rfl
@[simp] theorem State.drawn_audioGate : (s.drawn).audioGate = s.audioGate := rfl
@[simp] theorem State.drawn_fault : (s.drawn).fault = s.fault := rfl
@[simp] theorem State.drawn_image : (s.drawn).image = s.image := rfl
@[simp] theorem State.drawn_phase : (s.drawn).phase = s.phase := rfl
@[simp] theorem State.drawn_inputs : (s.drawn).inputs = s.inputs := rfl
@[simp] theorem State.drawn_outputs : (s.drawn).outputs = s.outputs := rfl
@[simp] theorem State.drawn_draws : (s.drawn).draws = s.draws + 1 := rfl

/-! ### raise -/

@[simp] theorem State.raise_params (f : FaultCode) : (s.raise f).params = s.params := rfl
@[simp] theorem State.raise_mem (f : FaultCode) : (s.raise f).mem = s.mem := rfl
@[simp] theorem State.raise_display (f : FaultCode) : (s.raise f).display = s.display := rfl
@[simp] theorem State.raise_v (f : FaultCode) : (s.raise f).v = s.v := rfl
@[simp] theorem State.raise_i (f : FaultCode) : (s.raise f).i = s.i := rfl
@[simp] theorem State.raise_pc (f : FaultCode) : (s.raise f).pc = s.pc := rfl
@[simp] theorem State.raise_stack (f : FaultCode) : (s.raise f).stack = s.stack := rfl
@[simp] theorem State.raise_dt (f : FaultCode) : (s.raise f).dt = s.dt := rfl
@[simp] theorem State.raise_st (f : FaultCode) : (s.raise f).st = s.st := rfl
@[simp] theorem State.raise_keypad (f : FaultCode) : (s.raise f).keypad = s.keypad := rfl
@[simp] theorem State.raise_runState (f : FaultCode) : (s.raise f).runState = .halted := rfl
@[simp] theorem State.raise_redrawPending (f : FaultCode) : (s.raise f).redrawPending = s.redrawPending := rfl
@[simp] theorem State.raise_audioGate (f : FaultCode) : (s.raise f).audioGate = s.audioGate := rfl
@[simp] theorem State.raise_fault (f : FaultCode) : (s.raise f).fault = f := rfl
@[simp] theorem State.raise_image (f : FaultCode) : (s.raise f).image = s.image := rfl
@[simp] theorem State.raise_phase (f : FaultCode) : (s.raise f).phase = .between := rfl
@[simp] theorem State.raise_inputs (f : FaultCode) : (s.raise f).inputs = s.inputs := rfl
@[simp] theorem State.raise_outputs (f : FaultCode) : (s.raise f).outputs = s.outputs := rfl
@[simp] theorem State.raise_draws (f : FaultCode) : (s.raise f).draws = s.draws := rfl

/-! ### emit -/

@[simp] theorem State.emit_params (e : Output) : (s.emit e).params = s.params := rfl
@[simp] theorem State.emit_mem (e : Output) : (s.emit e).mem = s.mem := rfl
@[simp] theorem State.emit_display (e : Output) : (s.emit e).display = s.display := rfl
@[simp] theorem State.emit_v (e : Output) : (s.emit e).v = s.v := rfl
@[simp] theorem State.emit_i (e : Output) : (s.emit e).i = s.i := rfl
@[simp] theorem State.emit_pc (e : Output) : (s.emit e).pc = s.pc := rfl
@[simp] theorem State.emit_stack (e : Output) : (s.emit e).stack = s.stack := rfl
@[simp] theorem State.emit_dt (e : Output) : (s.emit e).dt = s.dt := rfl
@[simp] theorem State.emit_st (e : Output) : (s.emit e).st = s.st := rfl
@[simp] theorem State.emit_keypad (e : Output) : (s.emit e).keypad = s.keypad := rfl
@[simp] theorem State.emit_runState (e : Output) : (s.emit e).runState = s.runState := rfl
@[simp] theorem State.emit_redrawPending (e : Output) : (s.emit e).redrawPending = s.redrawPending := rfl
@[simp] theorem State.emit_audioGate (e : Output) : (s.emit e).audioGate = s.audioGate := rfl
@[simp] theorem State.emit_fault (e : Output) : (s.emit e).fault = s.fault := rfl
@[simp] theorem State.emit_image (e : Output) : (s.emit e).image = s.image := rfl
@[simp] theorem State.emit_phase (e : Output) : (s.emit e).phase = s.phase := rfl
@[simp] theorem State.emit_inputs (e : Output) : (s.emit e).inputs = s.inputs := rfl
@[simp] theorem State.emit_outputs (e : Output) : (s.emit e).outputs = e :: s.outputs := rfl
@[simp] theorem State.emit_draws (e : Output) : (s.emit e).draws = s.draws := rfl

/-! ### sampleKeys -/

@[simp] theorem State.sampleKeys_params (keys : Keys) : (s.sampleKeys keys).params = s.params := rfl
@[simp] theorem State.sampleKeys_mem (keys : Keys) : (s.sampleKeys keys).mem = s.mem := rfl
@[simp] theorem State.sampleKeys_display (keys : Keys) : (s.sampleKeys keys).display = s.display := rfl
@[simp] theorem State.sampleKeys_v (keys : Keys) : (s.sampleKeys keys).v = s.v := rfl
@[simp] theorem State.sampleKeys_i (keys : Keys) : (s.sampleKeys keys).i = s.i := rfl
@[simp] theorem State.sampleKeys_pc (keys : Keys) : (s.sampleKeys keys).pc = s.pc := rfl
@[simp] theorem State.sampleKeys_stack (keys : Keys) : (s.sampleKeys keys).stack = s.stack := rfl
@[simp] theorem State.sampleKeys_dt (keys : Keys) : (s.sampleKeys keys).dt = s.dt := rfl
@[simp] theorem State.sampleKeys_st (keys : Keys) : (s.sampleKeys keys).st = s.st := rfl
@[simp] theorem State.sampleKeys_keypad (keys : Keys) : (s.sampleKeys keys).keypad = keys := rfl
@[simp] theorem State.sampleKeys_runState (keys : Keys) : (s.sampleKeys keys).runState = s.runState := rfl
@[simp] theorem State.sampleKeys_redrawPending (keys : Keys) : (s.sampleKeys keys).redrawPending = s.redrawPending := rfl
@[simp] theorem State.sampleKeys_audioGate (keys : Keys) : (s.sampleKeys keys).audioGate = s.audioGate := rfl
@[simp] theorem State.sampleKeys_fault (keys : Keys) : (s.sampleKeys keys).fault = s.fault := rfl
@[simp] theorem State.sampleKeys_image (keys : Keys) : (s.sampleKeys keys).image = s.image := rfl
@[simp] theorem State.sampleKeys_phase (keys : Keys) : (s.sampleKeys keys).phase = s.phase := rfl
@[simp] theorem State.sampleKeys_inputs (keys : Keys) : (s.sampleKeys keys).inputs = s.inputs := rfl
@[simp] theorem State.sampleKeys_outputs (keys : Keys) : (s.sampleKeys keys).outputs = s.outputs := rfl
@[simp] theorem State.sampleKeys_draws (keys : Keys) : (s.sampleKeys keys).draws = s.draws := rfl

/-! ### tickTimers -/

@[simp] theorem State.tickTimers_params : (s.tickTimers).params = s.params := rfl
@[simp] theorem State.tickTimers_mem : (s.tickTimers).mem = s.mem := rfl
@[simp] theorem State.tickTimers_display : (s.tickTimers).display = s.display := rfl
@[simp] theorem State.tickTimers_v : (s.tickTimers).v = s.v := rfl
@[simp] theorem State.tickTimers_i : (s.tickTimers).i = s.i := rfl
@[simp] theorem State.tickTimers_pc : (s.tickTimers).pc = s.pc := rfl
@[simp] theorem State.tickTimers_stack : (s.tickTimers).stack = s.stack := rfl
@[simp] theorem State.tickTimers_dt : (s.tickTimers).dt = countDown s.dt := rfl
@[simp] theorem State.tickTimers_st : (s.tickTimers).st = countDown s.st := rfl
@[simp] theorem State.tickTimers_keypad : (s.tickTimers).keypad = s.keypad := rfl
@[simp] theorem State.tickTimers_runState : (s.tickTimers).runState = s.runState := rfl
@[simp] theorem State.tickTimers_redrawPending : (s.tickTimers).redrawPending = s.redrawPending := rfl
@[simp] theorem State.tickTimers_audioGate : (s.tickTimers).audioGate = gateOf (countDown s.st) := rfl
@[simp] theorem State.tickTimers_fault : (s.tickTimers).fault = s.fault := rfl
@[simp] theorem State.tickTimers_image : (s.tickTimers).image = s.image := rfl
@[simp] theorem State.tickTimers_phase : (s.tickTimers).phase = s.phase := rfl
@[simp] theorem State.tickTimers_inputs : (s.tickTimers).inputs = s.inputs := rfl
@[simp] theorem State.tickTimers_outputs : (s.tickTimers).outputs = .gate (gateOf (countDown s.st)) :: s.outputs := rfl
@[simp] theorem State.tickTimers_draws : (s.tickTimers).draws = s.draws := rfl

/-! ### loaded -/

@[simp] theorem State.loaded_params (image : List Byte) : (s.loaded image).params = s.params := rfl
@[simp] theorem State.loaded_mem (image : List Byte) : (s.loaded image).mem = Memory.afterLoad s.params image := rfl
@[simp] theorem State.loaded_display (image : List Byte) : (s.loaded image).display = blankDisplay := rfl
@[simp] theorem State.loaded_v (image : List Byte) : (s.loaded image).v = Vector.replicate 16 0 := rfl
@[simp] theorem State.loaded_i (image : List Byte) : (s.loaded image).i = 0 := rfl
@[simp] theorem State.loaded_pc (image : List Byte) : (s.loaded image).pc = s.params.entry.setWidth 16 := rfl
@[simp] theorem State.loaded_stack (image : List Byte) : (s.loaded image).stack = [] := rfl
@[simp] theorem State.loaded_dt (image : List Byte) : (s.loaded image).dt = 0 := rfl
@[simp] theorem State.loaded_st (image : List Byte) : (s.loaded image).st = 0 := rfl
@[simp] theorem State.loaded_keypad (image : List Byte) : (s.loaded image).keypad = 0 := rfl
@[simp] theorem State.loaded_runState (image : List Byte) : (s.loaded image).runState = .running := rfl
@[simp] theorem State.loaded_redrawPending (image : List Byte) : (s.loaded image).redrawPending = false := rfl
@[simp] theorem State.loaded_audioGate (image : List Byte) : (s.loaded image).audioGate = .off := rfl
@[simp] theorem State.loaded_fault (image : List Byte) : (s.loaded image).fault = .none := rfl
@[simp] theorem State.loaded_image (image : List Byte) : (s.loaded image).image = image := rfl
@[simp] theorem State.loaded_phase (image : List Byte) : (s.loaded image).phase = .between := rfl
@[simp] theorem State.loaded_inputs (image : List Byte) : (s.loaded image).inputs = s.inputs := rfl
@[simp] theorem State.loaded_outputs (image : List Byte) : (s.loaded image).outputs = .present blankDisplay :: s.outputs := rfl
@[simp] theorem State.loaded_draws (image : List Byte) : (s.loaded image).draws = s.draws := rfl

/-! ### The updates that choose -/

@[simp] theorem State.skipIf_params (c : Bool) : (s.skipIf c).params = s.params := by cases c <;> rfl
@[simp] theorem State.skipIf_mem (c : Bool) : (s.skipIf c).mem = s.mem := by cases c <;> rfl
@[simp] theorem State.skipIf_display (c : Bool) : (s.skipIf c).display = s.display := by cases c <;> rfl
@[simp] theorem State.skipIf_v (c : Bool) : (s.skipIf c).v = s.v := by cases c <;> rfl
@[simp] theorem State.skipIf_i (c : Bool) : (s.skipIf c).i = s.i := by cases c <;> rfl
@[simp] theorem State.skipIf_stack (c : Bool) : (s.skipIf c).stack = s.stack := by cases c <;> rfl
@[simp] theorem State.skipIf_dt (c : Bool) : (s.skipIf c).dt = s.dt := by cases c <;> rfl
@[simp] theorem State.skipIf_st (c : Bool) : (s.skipIf c).st = s.st := by cases c <;> rfl
@[simp] theorem State.skipIf_keypad (c : Bool) : (s.skipIf c).keypad = s.keypad := by cases c <;> rfl
@[simp] theorem State.skipIf_runState (c : Bool) : (s.skipIf c).runState = s.runState := by cases c <;> rfl
@[simp] theorem State.skipIf_redrawPending (c : Bool) : (s.skipIf c).redrawPending = s.redrawPending := by cases c <;> rfl
@[simp] theorem State.skipIf_audioGate (c : Bool) : (s.skipIf c).audioGate = s.audioGate := by cases c <;> rfl
@[simp] theorem State.skipIf_fault (c : Bool) : (s.skipIf c).fault = s.fault := by cases c <;> rfl
@[simp] theorem State.skipIf_image (c : Bool) : (s.skipIf c).image = s.image := by cases c <;> rfl
@[simp] theorem State.skipIf_phase (c : Bool) : (s.skipIf c).phase = s.phase := by cases c <;> rfl
@[simp] theorem State.skipIf_inputs (c : Bool) : (s.skipIf c).inputs = s.inputs := by cases c <;> rfl
@[simp] theorem State.skipIf_outputs (c : Bool) : (s.skipIf c).outputs = s.outputs := by cases c <;> rfl
@[simp] theorem State.skipIf_draws (c : Bool) : (s.skipIf c).draws = s.draws := by cases c <;> rfl
@[simp] theorem State.skipIf_pc (c : Bool) : (s.skipIf c).pc = if c then s.pc + 2 else s.pc := by cases c <;> rfl
@[simp] theorem State.useStep_params : s.useStep.params = s.params := by unfold State.useStep; split <;> rfl
@[simp] theorem State.useStep_mem : s.useStep.mem = s.mem := by unfold State.useStep; split <;> rfl
@[simp] theorem State.useStep_display : s.useStep.display = s.display := by unfold State.useStep; split <;> rfl
@[simp] theorem State.useStep_v : s.useStep.v = s.v := by unfold State.useStep; split <;> rfl
@[simp] theorem State.useStep_i : s.useStep.i = s.i := by unfold State.useStep; split <;> rfl
@[simp] theorem State.useStep_pc : s.useStep.pc = s.pc := by unfold State.useStep; split <;> rfl
@[simp] theorem State.useStep_stack : s.useStep.stack = s.stack := by unfold State.useStep; split <;> rfl
@[simp] theorem State.useStep_dt : s.useStep.dt = s.dt := by unfold State.useStep; split <;> rfl
@[simp] theorem State.useStep_st : s.useStep.st = s.st := by unfold State.useStep; split <;> rfl
@[simp] theorem State.useStep_keypad : s.useStep.keypad = s.keypad := by unfold State.useStep; split <;> rfl
@[simp] theorem State.useStep_runState : s.useStep.runState = s.runState := by unfold State.useStep; split <;> rfl
@[simp] theorem State.useStep_redrawPending : s.useStep.redrawPending = s.redrawPending := by unfold State.useStep; split <;> rfl
@[simp] theorem State.useStep_audioGate : s.useStep.audioGate = s.audioGate := by unfold State.useStep; split <;> rfl
@[simp] theorem State.useStep_fault : s.useStep.fault = s.fault := by unfold State.useStep; split <;> rfl
@[simp] theorem State.useStep_image : s.useStep.image = s.image := by unfold State.useStep; split <;> rfl
@[simp] theorem State.useStep_inputs : s.useStep.inputs = s.inputs := by unfold State.useStep; split <;> rfl
@[simp] theorem State.useStep_outputs : s.useStep.outputs = s.outputs := by unfold State.useStep; split <;> rfl
@[simp] theorem State.useStep_draws : s.useStep.draws = s.draws := by unfold State.useStep; split <;> rfl
@[simp] theorem State.presentPending_params : s.presentPending.params = s.params := by unfold State.presentPending; split <;> rfl
@[simp] theorem State.presentPending_mem : s.presentPending.mem = s.mem := by unfold State.presentPending; split <;> rfl
@[simp] theorem State.presentPending_display : s.presentPending.display = s.display := by unfold State.presentPending; split <;> rfl
@[simp] theorem State.presentPending_v : s.presentPending.v = s.v := by unfold State.presentPending; split <;> rfl
@[simp] theorem State.presentPending_i : s.presentPending.i = s.i := by unfold State.presentPending; split <;> rfl
@[simp] theorem State.presentPending_pc : s.presentPending.pc = s.pc := by unfold State.presentPending; split <;> rfl
@[simp] theorem State.presentPending_stack : s.presentPending.stack = s.stack := by unfold State.presentPending; split <;> rfl
@[simp] theorem State.presentPending_dt : s.presentPending.dt = s.dt := by unfold State.presentPending; split <;> rfl
@[simp] theorem State.presentPending_st : s.presentPending.st = s.st := by unfold State.presentPending; split <;> rfl
@[simp] theorem State.presentPending_keypad : s.presentPending.keypad = s.keypad := by unfold State.presentPending; split <;> rfl
@[simp] theorem State.presentPending_runState : s.presentPending.runState = s.runState := by unfold State.presentPending; split <;> rfl
@[simp] theorem State.presentPending_audioGate : s.presentPending.audioGate = s.audioGate := by unfold State.presentPending; split <;> rfl
@[simp] theorem State.presentPending_fault : s.presentPending.fault = s.fault := by unfold State.presentPending; split <;> rfl
@[simp] theorem State.presentPending_image : s.presentPending.image = s.image := by unfold State.presentPending; split <;> rfl
@[simp] theorem State.presentPending_phase : s.presentPending.phase = s.phase := by unfold State.presentPending; split <;> rfl
@[simp] theorem State.presentPending_inputs : s.presentPending.inputs = s.inputs := by unfold State.presentPending; split <;> rfl
@[simp] theorem State.presentPending_draws : s.presentPending.draws = s.draws := by unfold State.presentPending; split <;> rfl
@[simp] theorem State.presentPending_redrawPending : s.presentPending.redrawPending = false := by
  unfold State.presentPending; split <;> simp_all

/-! ### Reading a register -/

@[simp] theorem State.reg_setReg_same (x : RegIdx) (b : Byte) : (s.setReg x b).reg x = b := by simp [State.reg]

theorem State.reg_setReg (x r : RegIdx) (b : Byte) : (s.setReg x b).reg r = if r = x then b else s.reg r := by
  by_cases h : r = x
  · subst h; simp
  · simp [State.reg, h, Fin.val_inj, Ne.symm h]

theorem State.reg_setReg_other {x r : RegIdx} (b : Byte) (h : r ≠ x) : (s.setReg x b).reg r = s.reg r := by
  simp [State.reg_setReg, h]

@[simp] theorem State.reg_setResultFlag_flag (x : RegIdx) (r f : Byte) : (s.setResultFlag x r f).reg vf = f := by
  simp [State.setResultFlag]

theorem State.reg_setResultFlag_result {x : RegIdx} (r f : Byte) (h : x ≠ vf) :
    (s.setResultFlag x r f).reg x = r := by
  simp [State.setResultFlag, State.reg_setReg, h]

theorem State.reg_setResultFlag_other {x y : RegIdx} (r f : Byte) (hx : y ≠ x) (hf : y ≠ vf) :
    (s.setResultFlag x r f).reg y = s.reg y := by
  simp [State.setResultFlag, State.reg_setReg, hx, hf]

@[simp] theorem State.reg_setI (a : Word) (r : RegIdx) : (s.setI a).reg r = s.reg r := rfl
@[simp] theorem State.reg_setPc (a : Word) (r : RegIdx) : (s.setPc a).reg r = s.reg r := rfl
@[simp] theorem State.reg_advance (r : RegIdx) : (s.advance).reg r = s.reg r := rfl
@[simp] theorem State.reg_rewind (r : RegIdx) : (s.rewind).reg r = s.reg r := rfl
@[simp] theorem State.reg_setDt (b : Byte) (r : RegIdx) : (s.setDt b).reg r = s.reg r := rfl
@[simp] theorem State.reg_setSt (b : Byte) (r : RegIdx) : (s.setSt b).reg r = s.reg r := rfl
@[simp] theorem State.reg_push (a : Word) (r : RegIdx) : (s.push a).reg r = s.reg r := rfl
@[simp] theorem State.reg_popTo (a : Word) (rest : List Word) (r : RegIdx) : (s.popTo a rest).reg r = s.reg r := rfl
@[simp] theorem State.reg_redraw (d : Display) (r : RegIdx) : (s.redraw d).reg r = s.reg r := rfl
@[simp] theorem State.reg_drawn (r : RegIdx) : (s.drawn).reg r = s.reg r := rfl
@[simp] theorem State.reg_raise (f : FaultCode) (r : RegIdx) : (s.raise f).reg r = s.reg r := rfl
@[simp] theorem State.reg_emit (e : Output) (r : RegIdx) : (s.emit e).reg r = s.reg r := rfl
@[simp] theorem State.reg_sampleKeys (keys : Keys) (r : RegIdx) : (s.sampleKeys keys).reg r = s.reg r := rfl
@[simp] theorem State.reg_tickTimers (r : RegIdx) : (s.tickTimers).reg r = s.reg r := rfl
@[simp] theorem State.reg_skipIf (c : Bool) (r : RegIdx) : (s.skipIf c).reg r = s.reg r := by cases c <;> rfl
@[simp] theorem State.reg_useStep (r : RegIdx) : s.useStep.reg r = s.reg r := by simp [State.reg]

end Sys2Proof.Machine
end

