-- ==== Sys2Proof/Laws/Display.lean ====
section
/-! SUPPORT. The display: what flipping one pixel does, and what the two loops of the rasteriser do to every pixel and to
the collision bit (spec/42_display.md R86, R87). Pixels are named by column `px` and row `py`. -/

namespace Sys2Proof.Machine

theorem Display.pixel_flip (d : Display) {k : Nat} (j : Nat) (hk : k < 2048) :
    (d.flip k).pixel j = (d.pixel j ^^ decide (j = k)) := by
  have hrow : k / dispW < 32 := by simp only [dispW]; omega
  unfold Display.pixel Display.flip
  by_cases hr : j / dispW = k / dispW
  · have hcol : j = k ↔ k % dispW = j % dispW := by simp only [dispW] at hr ⊢; omega
    have hlt : k % dispW < 64 := Nat.mod_lt _ (by decide)
    simp [hr, hrow, hcol, hlt, BitVec.getLsbD_twoPow]
  · have hne : j ≠ k := fun h => hr (by rw [h])
    simp [Ne.symm hr, hne]

@[simp] theorem Display.pixel_blank (k : Nat) : blankDisplay.pixel k = false := by
  unfold Display.pixel blankDisplay
  by_cases h : k / dispW < 32 <;> simp [h]

/-- Whether pixel `(px, py)` lies under a set bit among the columns `col .. col + n - 1` of sprite row `b` (R87). -/
def rowCovers (x0 y : Nat) (b : Byte) (col n px py : Nat) : Prop :=
  py = y ∧ x0 + col ≤ px ∧ px < x0 + col + n ∧ b.getLsbD (7 - (px - x0)) = true

theorem rowCovers_succ {x0 y : Nat} {b : Byte} {col n px py : Nat} :
    rowCovers x0 y b col (n + 1) px py ↔
      (py = y ∧ px = x0 + col ∧ b.getLsbD (7 - col) = true) ∨ rowCovers x0 y b (col + 1) n px py := by
  unfold rowCovers
  constructor
  · rintro ⟨h1, h2, h3, h4⟩
    by_cases h : px = x0 + col
    · subst h; exact .inl ⟨h1, rfl, by simpa using h4⟩
    · exact .inr ⟨h1, by omega, by omega, h4⟩
  · rintro (⟨h1, h2, h3⟩ | ⟨h1, h2, h3, h4⟩)
    · subst h2; exact ⟨h1, by omega, by omega, by simpa using h3⟩
    · exact ⟨h1, by omega, by omega, h4⟩

theorem Canvas.plot_pixel (c : Canvas) {k : Nat} (j : Nat) (hk : k < 2048) :
    (c.plot k).display.pixel j = (c.display.pixel j ^^ decide (j = k)) := Display.pixel_flip c.display j hk

/-- The column loop flips exactly the pixels under set bits. -/
theorem Canvas.drawRow_pixel {x0 y : Nat} {b : Byte} {col n : Nat} (c : Canvas) (hx : x0 + col + n ≤ 64) (hy : y < 32)
    {px py : Nat} (hpx : px < 64) :
    (Canvas.drawRow x0 y b col n c).display.pixel (py * 64 + px) = true ↔
      ¬(c.display.pixel (py * 64 + px) = true ↔ rowCovers x0 y b col n px py) := by
  induction n generalizing col c with
  | zero =>
    have : ¬rowCovers x0 y b col 0 px py := by unfold rowCovers; omega
    simp [Canvas.drawRow, this]
  | succ n ih =>
    rw [Canvas.drawRow, ih _ (by omega), rowCovers_succ]
    by_cases hb : b.getLsbD (7 - col) = true
    · rw [if_pos hb, Canvas.plot_pixel _ _ (by simp only [dispW]; omega)]
      by_cases hp : py = y ∧ px = x0 + col
      · obtain ⟨rfl, rfl⟩ := hp
        have hnot : ¬rowCovers x0 py b (col + 1) n (x0 + col) py := by unfold rowCovers; omega
        simp [hb, hnot, dispW]
      · have hne : py * 64 + px ≠ y * dispW + (x0 + col) := by simp only [dispW]; omega
        simp only [hne, decide_false, Bool.xor_false]
        tauto
    · rw [if_neg hb]
      simp [hb]

/-- The column loop notes a collision exactly when a set bit lies on a set pixel. -/
theorem Canvas.drawRow_collision {x0 y : Nat} {b : Byte} {col n : Nat} (c : Canvas) (hx : x0 + col + n ≤ 64)
    (hy : y < 32) :
    (Canvas.drawRow x0 y b col n c).collision = true ↔
      c.collision = true ∨ ∃ px, px < 64 ∧ rowCovers x0 y b col n px y ∧ c.display.pixel (y * 64 + px) = true := by
  induction n generalizing col c with
  | zero =>
    have : ∀ px, ¬rowCovers x0 y b col 0 px y := by intro px; unfold rowCovers; omega
    simp [Canvas.drawRow, this]
  | succ n ih =>
    rw [Canvas.drawRow, ih _ (by omega)]
    by_cases hb : b.getLsbD (7 - col) = true
    · rw [if_pos hb]
      have hpix : ∀ px, rowCovers x0 y b (col + 1) n px y →
          (c.plot (y * dispW + (x0 + col))).display.pixel (y * 64 + px) = c.display.pixel (y * 64 + px) := by
        intro px h
        have hne : y * 64 + px ≠ y * dispW + (x0 + col) := by
          have := h.2.1; simp only [dispW]; omega
        rw [Canvas.plot_pixel _ _ (by simp only [dispW]; omega), decide_eq_false hne, Bool.xor_false]
      have hcol : (c.plot (y * dispW + (x0 + col))).collision =
          (c.collision || c.display.pixel (y * 64 + (x0 + col))) := rfl
      rw [hcol, Bool.or_eq_true]
      constructor
      · rintro ((h | h) | ⟨px, h1, h2, h3⟩)
        · exact .inl h
        · exact .inr ⟨x0 + col, by omega, rowCovers_succ.2 (.inl ⟨rfl, rfl, hb⟩), h⟩
        · exact .inr ⟨px, h1, rowCovers_succ.2 (.inr h2), by rwa [hpix px h2] at h3⟩
      · rintro (h | ⟨px, h1, h2, h3⟩)
        · exact .inl (.inl h)
        · rcases rowCovers_succ.1 h2 with ⟨-, rfl, -⟩ | h2
          · exact .inl (.inr h3)
          · exact .inr ⟨px, h1, h2, by rwa [hpix px h2]⟩
    · rw [if_neg hb]
      have : ∀ px, rowCovers x0 y b col (n + 1) px y ↔ rowCovers x0 y b (col + 1) n px y := by
        intro px; rw [rowCovers_succ]; simp [hb]
      simp only [this]

/-- Whether pixel `(px, py)` lies under a set bit of the sprite rows `bs`, the first on display row `y` (R87). -/
def rowsCover (x0 cols y : Nat) (bs : List Byte) (px py : Nat) : Prop :=
  y ≤ py ∧ py < y + bs.length ∧ x0 ≤ px ∧ px < x0 + cols ∧ (bs.getD (py - y) 0).getLsbD (7 - (px - x0)) = true

theorem rowsCover_cons {x0 cols y : Nat} {b : Byte} {bs : List Byte} {px py : Nat} :
    rowsCover x0 cols y (b :: bs) px py ↔ rowCovers x0 y b 0 cols px py ∨ rowsCover x0 cols (y + 1) bs px py := by
  unfold rowsCover rowCovers
  rcases Nat.lt_trichotomy py y with h | h | h
  · constructor
    · rintro ⟨h1, -⟩; omega
    · rintro (⟨h1, -⟩ | ⟨h1, -⟩) <;> omega
  · subst h
    simp
  · obtain ⟨d, rfl⟩ := Nat.exists_eq_add_of_lt h
    have e1 : y + d + 1 - y = d + 1 := by omega
    have e2 : y + d + 1 - (y + 1) = d := by omega
    rw [e1, e2, List.getD_cons_succ, List.length_cons]
    constructor
    · rintro ⟨-, h2, h3, h4, h5⟩; exact .inr ⟨by omega, by omega, h3, h4, h5⟩
    · rintro (⟨h1, -⟩ | ⟨h1, h2, h3, h4, h5⟩)
      · omega
      · exact ⟨by omega, by omega, h3, h4, h5⟩

theorem rowsCover_nil {x0 cols y px py : Nat} : ¬rowsCover x0 cols y [] px py := by
  unfold rowsCover; simp only [List.length_nil]; omega

/-- The row loop flips exactly the pixels under set bits. -/
theorem Canvas.drawRows_pixel {x0 cols y : Nat} {bs : List Byte} (c : Canvas) (hx : x0 + cols ≤ 64)
    (hy : y + bs.length ≤ 32) {px py : Nat} (hpx : px < 64) :
    (Canvas.drawRows x0 cols y bs c).display.pixel (py * 64 + px) = true ↔
      ¬(c.display.pixel (py * 64 + px) = true ↔ rowsCover x0 cols y bs px py) := by
  induction bs generalizing y c with
  | nil => simp [Canvas.drawRows, rowsCover_nil]
  | cons b bs ih =>
    simp only [List.length_cons] at hy
    rw [Canvas.drawRows, ih _ (by omega), Canvas.drawRow_pixel c (by omega) (by omega) hpx, rowsCover_cons]
    have hex : ¬(rowCovers x0 y b 0 cols px py ∧ rowsCover x0 cols (y + 1) bs px py) := by
      rintro ⟨⟨h1, -⟩, ⟨h2, -⟩⟩; omega
    tauto

/-- The row loop notes a collision exactly when a set bit lies on a set pixel. -/
theorem Canvas.drawRows_collision {x0 cols y : Nat} {bs : List Byte} (c : Canvas) (hx : x0 + cols ≤ 64)
    (hy : y + bs.length ≤ 32) :
    (Canvas.drawRows x0 cols y bs c).collision = true ↔
      c.collision = true ∨
        ∃ px py, px < 64 ∧ py < 32 ∧ rowsCover x0 cols y bs px py ∧ c.display.pixel (py * 64 + px) = true := by
  induction bs generalizing y c with
  | nil => simp [Canvas.drawRows, rowsCover_nil]
  | cons b bs ih =>
    simp only [List.length_cons] at hy
    rw [Canvas.drawRows, ih _ (by omega), Canvas.drawRow_collision c (by omega) (by omega)]
    have hpix : ∀ px py, px < 64 → rowsCover x0 cols (y + 1) bs px py →
        ((Canvas.drawRow x0 y b 0 cols c).display.pixel (py * 64 + px) = true ↔
          c.display.pixel (py * 64 + px) = true) := by
      intro px py hpx h
      have hnot : ¬rowCovers x0 y b 0 cols px py := by have := h.1; unfold rowCovers; omega
      rw [Canvas.drawRow_pixel c (by omega) (by omega) hpx]
      tauto
    constructor
    · rintro ((h | ⟨px, h1, h2, h3⟩) | ⟨px, py, h1, h2, h3, h4⟩)
      · exact .inl h
      · exact .inr ⟨px, y, h1, by omega, rowsCover_cons.2 (.inl h2), h3⟩
      · exact .inr ⟨px, py, h1, h2, rowsCover_cons.2 (.inr h3), (hpix px py h1 h3).1 h4⟩
    · rintro (h | ⟨px, py, h1, h2, h3, h4⟩)
      · exact .inl (.inl h)
      · rcases rowsCover_cons.1 h3 with h3 | h3
        · have : py = y := h3.1
          subst this
          exact .inl (.inr ⟨px, h1, h3, h4⟩)
        · exact .inr ⟨px, py, h1, h2, h3, (hpix px py h1 h3).2 h4⟩

/-- Two displays that agree on every pixel are equal data. -/
theorem Display.ext_pixel {d e : Display} (h : ∀ px py, px < 64 → py < 32 → d.pixel (py * 64 + px) = e.pixel (py * 64 + px)) :
    d = e := by
  apply Vector.ext
  intro i hi
  apply BitVec.eq_of_getLsbD_eq
  intro j hj
  have := h j i hj hi
  unfold Display.pixel at this
  have e1 : (i * 64 + j) / dispW = i := by simp only [dispW]; omega
  have e2 : (i * 64 + j) % dispW = j := by simp only [dispW]; omega
  simpa [e1, e2, hi] using this

end Sys2Proof.Machine
end

