-- ==== Sys2Proof/Laws/Encoding.lean ====
section
/-! SUPPORT. The fields of the words the encoder builds, format by format (spec/30_encoding.md R46, R47), and the bytes of a
word (spec/20_memory.md R32). -/

namespace Sys2Proof

theorem toNat_nib (x : RegIdx) : (nib x).toNat = x.val := rfl

theorem toNat_encRegImm (op : Nibble) (x : RegIdx) (nn : Byte) :
    (encRegImm op x nn).toNat = op.toNat * 4096 + x.val * 256 + nn.toNat := by
  have h1 := x.isLt; have h2 := nn.isLt
  unfold encRegImm
  rw [BitVec.toNat_append, BitVec.toNat_append, toNat_nib, ← Nat.shiftLeft_add_eq_or_of_lt h2,
    ← Nat.shiftLeft_add_eq_or_of_lt h1, Nat.shiftLeft_eq, Nat.shiftLeft_eq]
  omega

theorem toNat_encRegReg (op : Nibble) (x y : RegIdx) (sub : Nibble) :
    (encRegReg op x y sub).toNat = op.toNat * 4096 + x.val * 256 + y.val * 16 + sub.toNat := by
  have h1 := x.isLt; have h2 := y.isLt; have h3 := sub.isLt
  unfold encRegReg
  rw [BitVec.toNat_append, BitVec.toNat_append, BitVec.toNat_append, toNat_nib, toNat_nib,
    ← Nat.shiftLeft_add_eq_or_of_lt h3, ← Nat.shiftLeft_add_eq_or_of_lt h2, ← Nat.shiftLeft_add_eq_or_of_lt h1,
    Nat.shiftLeft_eq, Nat.shiftLeft_eq, Nat.shiftLeft_eq]
  omega

theorem toNat_encAddr (op : Nibble) (nnn : Addr12) : (encAddr op nnn).toNat = op.toNat * 4096 + nnn.toNat := by
  have h1 := nnn.isLt
  unfold encAddr
  rw [BitVec.toNat_append, ← Nat.shiftLeft_add_eq_or_of_lt h1, Nat.shiftLeft_eq]

/-! ## Fields as arithmetic on the word -/

theorem fieldOp_eq (w : Word) : fieldOp w = w.toNat / 4096 := by
  have := w.isLt
  simp [fieldOp, BitVec.extractLsb'_toNat, Nat.shiftRight_eq_div_pow]; omega

theorem val_fieldX (w : Word) : (fieldX w).val = w.toNat / 256 % 16 := by
  simp [fieldX, Nat.shiftRight_eq_div_pow]

theorem val_fieldY (w : Word) : (fieldY w).val = w.toNat / 16 % 16 := by
  simp [fieldY, Nat.shiftRight_eq_div_pow]

theorem toNat_fieldN (w : Word) : (fieldN w).toNat = w.toNat % 16 := by
  simp [fieldN, BitVec.extractLsb'_toNat]

theorem toNat_fieldNN (w : Word) : (fieldNN w).toNat = w.toNat % 256 := by
  simp [fieldNN, BitVec.extractLsb'_toNat]

theorem toNat_fieldNNN (w : Word) : (fieldNNN w).toNat = w.toNat % 4096 := by
  simp [fieldNNN, BitVec.extractLsb'_toNat]

/-! ## Fields of encoded words -/

section formats

variable (op sub : Nibble) (x y : RegIdx) (nn : Byte) (nnn : Addr12)

@[simp] theorem fieldOp_encRegImm : fieldOp (encRegImm op x nn) = op.toNat := by
  have := x.isLt; have := nn.isLt
  rw [fieldOp_eq, toNat_encRegImm]; omega

@[simp] theorem fieldX_encRegImm : fieldX (encRegImm op x nn) = x := by
  have := x.isLt; have := nn.isLt
  apply Fin.ext; rw [val_fieldX, toNat_encRegImm]; omega

@[simp] theorem fieldNN_encRegImm : fieldNN (encRegImm op x nn) = nn := by
  have := nn.isLt
  apply BitVec.eq_of_toNat_eq; rw [toNat_fieldNN, toNat_encRegImm]; omega

@[simp] theorem fieldOp_encRegReg : fieldOp (encRegReg op x y sub) = op.toNat := by
  have := x.isLt; have := y.isLt; have := sub.isLt
  rw [fieldOp_eq, toNat_encRegReg]; omega

@[simp] theorem fieldX_encRegReg : fieldX (encRegReg op x y sub) = x := by
  have := x.isLt; have := y.isLt; have := sub.isLt
  apply Fin.ext; rw [val_fieldX, toNat_encRegReg]; omega

@[simp] theorem fieldY_encRegReg : fieldY (encRegReg op x y sub) = y := by
  have := y.isLt; have := sub.isLt
  apply Fin.ext; rw [val_fieldY, toNat_encRegReg]; omega

@[simp] theorem fieldN_encRegReg : fieldN (encRegReg op x y sub) = sub := by
  have := sub.isLt
  apply BitVec.eq_of_toNat_eq; rw [toNat_fieldN, toNat_encRegReg]; omega

@[simp] theorem fieldOp_encAddr : fieldOp (encAddr op nnn) = op.toNat := by
  have := nnn.isLt
  rw [fieldOp_eq, toNat_encAddr]; omega

@[simp] theorem fieldNNN_encAddr : fieldNNN (encAddr op nnn) = nnn := by
  have := nnn.isLt
  apply BitVec.eq_of_toNat_eq; rw [toNat_fieldNNN, toNat_encAddr]; omega

end formats

/-! ## Rebuilding a word from its fields -/

theorem encAddr_fields (w : Word) {op : Nibble} (h : fieldOp w = op.toNat) : encAddr op (fieldNNN w) = w := by
  have := w.isLt
  rw [fieldOp_eq] at h
  apply BitVec.eq_of_toNat_eq; rw [toNat_encAddr, toNat_fieldNNN]; omega

theorem encRegImm_fields (w : Word) {op : Nibble} (h : fieldOp w = op.toNat) :
    encRegImm op (fieldX w) (fieldNN w) = w := by
  have := w.isLt
  rw [fieldOp_eq] at h
  apply BitVec.eq_of_toNat_eq; rw [toNat_encRegImm, val_fieldX, toNat_fieldNN]; omega

theorem encRegReg_fields (w : Word) {op : Nibble} (h : fieldOp w = op.toNat) :
    encRegReg op (fieldX w) (fieldY w) (fieldN w) = w := by
  have := w.isLt
  rw [fieldOp_eq] at h
  apply BitVec.eq_of_toNat_eq; rw [toNat_encRegReg, val_fieldX, val_fieldY, toNat_fieldN]; omega

/-- The two bytes of a word, the lower address first, are the word again. -/
@[simp] theorem wordOfBytes_bytes (w : Word) : wordOfBytes (highByte w) (lowByte w) = w := by
  apply BitVec.eq_of_getLsbD_eq
  intro i hi
  simp only [wordOfBytes, highByte, lowByte, BitVec.getLsbD_append, BitVec.getLsbD_extractLsb']
  by_cases h : i < 8
  · simp [h]
  · simp [h, show i - 8 < 8 by omega, show 8 + (i - 8) = i by omega]

theorem decodeBytes_bytes (w : Word) (rest : List Byte) :
    decodeBytes (highByte w :: lowByte w :: rest) = .ok (decode w, rest) := by
  simp [decodeBytes]

end Sys2Proof
end

