-- ==== Sys2Proof/Laws/Memory.lean ====
section
/-! SUPPORT. Memory: a read after a write, the canonical form kept by every operation, equal memories are equal data, and
the checked primitives of spec/20_memory.md R31 and R32. -/

namespace Sys2Proof.Machine

/-! ## The canonical form -/

theorem Memory.wfFrom_cons {lo a : Nat} {v : Byte} {m : Memory} :
    Memory.wfFrom lo ((a, v) :: m) = true ↔
      lo ≤ a ∧ a ≤ 4095 ∧ v ≠ unlistedByte a ∧ Memory.wfFrom (a + 1) m = true := by
  simp [Memory.wfFrom, and_assoc]

theorem Memory.wfFrom_mono {lo lo' : Nat} {m : Memory} (h : lo' ≤ lo) (hm : Memory.wfFrom lo m = true) :
    Memory.wfFrom lo' m = true := by
  cases m with
  | nil => rfl
  | cons c rest =>
    obtain ⟨a, v⟩ := c
    rw [Memory.wfFrom_cons] at hm ⊢
    exact ⟨h.trans hm.1, hm.2⟩

/-- Below the first listed address every byte is unlisted. -/
theorem Memory.read_below {lo a : Nat} {m : Memory} (hm : Memory.wfFrom lo m = true) (h : a < lo) :
    m.read a = unlistedByte a := by
  induction m generalizing lo with
  | nil => rfl
  | cons c rest ih =>
    obtain ⟨b, w⟩ := c
    obtain ⟨h1, -, -, h4⟩ := Memory.wfFrom_cons.1 hm
    rw [Memory.read, if_neg (by omega)]
    exact ih h4 (by omega)

/-! ## Reads and writes -/

theorem Memory.read_write_same {lo a : Nat} {m : Memory} (v : Byte) (hm : Memory.wfFrom lo m = true) :
    (m.write a v).read a = v := by
  induction m generalizing lo with
  | nil => by_cases h : v = unlistedByte a <;> simp [Memory.write, Memory.read, h]
  | cons c rest ih =>
    obtain ⟨b, w⟩ := c
    obtain ⟨-, -, -, h4⟩ := Memory.wfFrom_cons.1 hm
    rw [Memory.write]
    split_ifs with h1 h2 h3 h5
    · have := Memory.read_below h4 (a := a) (by omega)
      simp [Memory.read, Nat.ne_of_lt h1, this, h2]
    · simp [Memory.read]
    · subst h3
      exact (Memory.read_below h4 (by omega)).trans h5.symm
    · simp [Memory.read]
    · simpa [Memory.read, h3] using ih h4

theorem Memory.read_write_other {a c : Nat} (m : Memory) (v : Byte) (h : c ≠ a) :
    (m.write a v).read c = m.read c := by
  induction m with
  | nil => by_cases h' : v = unlistedByte a <;> simp [Memory.write, Memory.read, h', h]
  | cons e rest ih =>
    obtain ⟨b, w⟩ := e
    rw [Memory.write]
    split_ifs with h1 h2 h3 h4 <;> simp_all [Memory.read]

theorem Memory.read_write {lo a c : Nat} {m : Memory} (v : Byte) (hm : Memory.wfFrom lo m = true) :
    (m.write a v).read c = if c = a then v else m.read c := by
  split_ifs with h
  · subst h; exact Memory.read_write_same v hm
  · exact Memory.read_write_other m v h

theorem Memory.wfFrom_write {lo a : Nat} {m : Memory} {v : Byte} (hm : Memory.wfFrom lo m = true) (hlo : lo ≤ a)
    (ha : a ≤ 4095) : Memory.wfFrom lo (m.write a v) = true := by
  induction m generalizing lo with
  | nil =>
    rw [Memory.write]
    split_ifs with h
    · rfl
    · exact Memory.wfFrom_cons.2 ⟨hlo, ha, h, rfl⟩
  | cons e rest ih =>
    obtain ⟨b, w⟩ := e
    obtain ⟨h1, h2, h3, h4⟩ := Memory.wfFrom_cons.1 hm
    rw [Memory.write]
    split_ifs with h5 h6 h7 h8
    · exact hm
    · exact Memory.wfFrom_cons.2 ⟨hlo, ha, h6, Memory.wfFrom_cons.2 ⟨h5, h2, h3, h4⟩⟩
    · exact Memory.wfFrom_mono (by omega) h4
    · subst h7; exact Memory.wfFrom_cons.2 ⟨hlo, ha, h8, h4⟩
    · exact Memory.wfFrom_cons.2 ⟨h1, h2, h3, ih h4 (by omega)⟩

/-- A write inside memory keeps the canonical form. -/
theorem Memory.wf_write {a : Nat} {m : Memory} {v : Byte} (hm : m.wf = true) (ha : a ≤ 4095) :
    (m.write a v).wf = true := Memory.wfFrom_write hm (Nat.zero_le a) ha

/-- Two canonical memories that read alike everywhere are equal data. -/
theorem Memory.ext_of_wfFrom {lo : Nat} {m n : Memory} (hm : Memory.wfFrom lo m = true) (hn : Memory.wfFrom lo n = true)
    (h : ∀ a, m.read a = n.read a) : m = n := by
  induction m generalizing lo n with
  | nil =>
    cases n with
    | nil => rfl
    | cons e rest =>
      obtain ⟨b, w⟩ := e
      have := (Memory.wfFrom_cons.1 hn).2.2.1
      simpa [Memory.read, this.symm] using h b
  | cons d rest ih =>
    obtain ⟨a, v⟩ := d
    obtain ⟨h1, h2, h3, h4⟩ := Memory.wfFrom_cons.1 hm
    cases n with
    | nil => simpa [Memory.read, h3] using h a
    | cons e rest' =>
      obtain ⟨b, w⟩ := e
      obtain ⟨g1, g2, g3, g4⟩ := Memory.wfFrom_cons.1 hn
      have hab : a = b := by
        by_contra hne
        rcases Nat.lt_or_gt_of_ne hne with hlt | hlt
        · have := h a
          rw [Memory.read, if_pos rfl, Memory.read, if_neg hne, Memory.read_below g4 (by omega)] at this
          exact h3 this
        · have := h b
          rw [Memory.read, if_neg (Ne.symm hne), Memory.read, if_pos rfl, Memory.read_below h4 (by omega)] at this
          exact g3 this.symm
      subst hab
      have hvw : v = w := by simpa [Memory.read] using h a
      subst hvw
      rw [ih h4 g4]
      intro c
      by_cases hc : c = a
      · subst hc; rw [Memory.read_below h4 (by omega), Memory.read_below g4 (by omega)]
      · simpa [Memory.read, hc] using h c

/-! ## Runs of bytes -/

@[simp] theorem Memory.length_readMany (m : Memory) (a n : Nat) : (m.readMany a n).length = n := by
  induction n generalizing a with
  | zero => rfl
  | succ n ih => simp [Memory.readMany, ih]

theorem Memory.getElem_readMany (m : Memory) (a n k : Nat) (h : k < (m.readMany a n).length) :
    (m.readMany a n)[k] = m.read (a + k) := by
  induction n generalizing a k with
  | zero => simp [Memory.readMany] at h
  | succ n ih =>
    cases k with
    | zero => rfl
    | succ k =>
      simp only [Memory.readMany, List.getElem_cons_succ]
      rw [ih, Nat.add_assoc, Nat.add_comm 1 k]

theorem Memory.readMany_congr {m m' : Memory} {a n : Nat} (h : ∀ c, m'.read c = m.read c) :
    m'.readMany a n = m.readMany a n := by
  induction n generalizing a with
  | zero => rfl
  | succ n ih => simp [Memory.readMany, h, ih]

theorem Memory.wf_writeMany {m : Memory} {a : Nat} {vs : List Byte} (hm : m.wf = true)
    (h : vs.length = 0 ∨ a + vs.length ≤ 4096) : (m.writeMany a vs).wf = true := by
  induction vs generalizing m a with
  | nil => exact hm
  | cons v vs ih =>
    simp only [List.length_cons] at h
    exact ih (Memory.wf_write hm (by omega)) (by omega)

/-- A run of bytes written reads back byte by byte; every other address reads as before. -/
theorem Memory.read_writeMany {m : Memory} {a c : Nat} {vs : List Byte} (hm : m.wf = true)
    (h : vs.length = 0 ∨ a + vs.length ≤ 4096) :
    (m.writeMany a vs).read c = if a ≤ c then vs.getD (c - a) (m.read c) else m.read c := by
  induction vs generalizing m a with
  | nil => simp [Memory.writeMany]
  | cons v vs ih =>
    simp only [List.length_cons] at h
    rw [Memory.writeMany, ih (Memory.wf_write hm (by omega)) (by omega), Memory.read_write v hm]
    rcases Nat.lt_trichotomy c a with hc | hc | hc
    · simp [Nat.not_le.2 hc, Nat.not_le.2 (Nat.lt_succ_of_lt hc), Nat.ne_of_lt hc]
    · subst hc; simp
    · obtain ⟨d, rfl⟩ := Nat.exists_eq_add_of_lt hc
      simp [Nat.add_assoc, show a + 1 ≤ a + (d + 1) by omega,
        show a + (d + 1) - (a + 1) = d by omega]

/-- Outside the bytes written every address reads as before. -/
theorem Memory.read_writeMany_outside {m : Memory} {a c : Nat} {vs : List Byte} (h : c < a ∨ a + vs.length ≤ c) :
    (m.writeMany a vs).read c = m.read c := by
  induction vs generalizing m a with
  | nil => rfl
  | cons v vs ih =>
    simp only [List.length_cons] at h
    rw [Memory.writeMany, ih (by omega), Memory.read_write_other _ _ (by omega)]

/-! ## Memory after load (spec/70_reset_and_hazards.md R130) -/

/-- Past the glyph table an unlisted byte is 0 (spec/10_state.md R25). -/
theorem unlistedByte_above {a : Nat} (h : 80 ≤ a) : unlistedByte a = 0 := by
  unfold unlistedByte
  rw [List.getD_eq_default]
  simpa [glyphTable, glyphsLow, glyphsHigh] using h

/-- Memory at reset reads as the unlisted bytes. -/
theorem Memory.read_reset (a : Nat) : State.reset.mem.read a = unlistedByte a := by
  rw [show State.reset.mem = [] from rfl, Memory.read]

theorem Params.entry_lt (p : Params) : p.entry.toNat < 4096 := p.entry.isLt

theorem Params.length_le_capacity {p : Params} {n : Nat} : n ≤ p.capacity ↔ p.entry.toNat + n ≤ 4096 := by
  have := p.entry_lt
  simp only [Params.capacity, memSize]; omega

theorem Params.wf_glyphs (p : Params) : (Memory.writeMany [] 0 p.glyphs.toList).wf = true :=
  Memory.wf_writeMany rfl (by simp)

theorem Memory.wf_afterLoad {p : Params} {image : List Byte} (h : image.length ≤ p.capacity) :
    (Memory.afterLoad p image).wf = true :=
  Memory.wf_writeMany p.wf_glyphs (by have := Params.length_le_capacity.1 h; omega)

/-- Everything memory after load holds: the image from `ENTRY`, outside it the glyph table, and past that 0. -/
theorem Memory.read_afterLoad {p : Params} {image : List Byte} {a : Nat} (h : image.length ≤ p.capacity) :
    (Memory.afterLoad p image).read a =
      if p.entry.toNat ≤ a ∧ a < p.entry.toNat + image.length then image.getD (a - p.entry.toNat) 0
      else if a < 80 then p.glyphs.toList.getD a 0 else 0 := by
  have hc := Params.length_le_capacity.1 h
  have hlen : p.glyphs.toList.length = 80 := by simp
  rw [Memory.afterLoad, Memory.read_writeMany p.wf_glyphs (by omega), Memory.read_writeMany rfl (by omega), Memory.read]
  simp only [Nat.zero_le, if_true, Nat.sub_zero]
  have hglyph : p.glyphs.toList.getD a (unlistedByte a) = if a < 80 then p.glyphs.toList.getD a 0 else 0 := by
    split_ifs with ha
    · rw [List.getD_eq_getElem _ _ (by omega), List.getD_eq_getElem _ _ (by omega)]
    · rw [List.getD_eq_default _ _ (by omega), unlistedByte_above (by omega)]
  rw [hglyph]
  by_cases h1 : p.entry.toNat ≤ a ∧ a < p.entry.toNat + image.length
  · rw [if_pos h1, if_pos h1.1, List.getD_eq_getElem _ _ (by omega), List.getD_eq_getElem _ _ (by omega)]
  · rw [if_neg h1]
    by_cases h2 : p.entry.toNat ≤ a
    · rw [if_pos h2, List.getD_eq_default _ _ (by omega)]
    · rw [if_neg h2]

/-! ## The checked primitives (R31, R32) -/

theorem inBounds_iff {a n : Nat} : inBounds a n = true ↔ n = 0 ∨ a + n ≤ 4096 := by
  simp only [inBounds, addrMax, Bool.or_eq_true, beq_iff_eq, decide_eq_true_eq]
  omega

theorem State.memRead_eq_some {s : State} {a n : Nat} {bs : List Byte} :
    s.memRead a n = some bs ↔ (n = 0 ∨ a + n ≤ 4096) ∧ bs = s.mem.readMany a n := by
  unfold State.memRead
  split_ifs with h <;> rw [inBounds_iff] at h <;> simp only [h, Option.some.injEq, true_and, false_and]
  exact eq_comm

theorem State.memRead_eq_none {s : State} {a n : Nat} : s.memRead a n = none ↔ n ≠ 0 ∧ 4096 < a + n := by
  unfold State.memRead
  split_ifs with h <;> rw [inBounds_iff] at h <;> simp only [true_iff, false_iff] <;> omega

theorem State.memWrite_eq_some {s t : State} {a : Nat} {vs : List Byte} :
    s.memWrite a vs = some t ↔
      (vs.length = 0 ∨ a + vs.length ≤ 4096) ∧ t = { s with mem := s.mem.writeMany a vs } := by
  unfold State.memWrite
  split_ifs with h <;> rw [inBounds_iff] at h <;> simp only [h, Option.some.injEq, true_and, false_and]
  exact eq_comm

theorem State.memWrite_eq_none {s : State} {a : Nat} {vs : List Byte} :
    s.memWrite a vs = none ↔ vs.length ≠ 0 ∧ 4096 < a + vs.length := by
  unfold State.memWrite
  split_ifs with h <;> rw [inBounds_iff] at h <;> simp only [true_iff, false_iff] <;> omega

theorem State.fetch_eq_some {s : State} {a : Nat} {w : Word} :
    s.fetch a = some w ↔ a + 1 ≤ 4095 ∧ w = s.mem.read a ++ s.mem.read (a + 1) := by
  unfold State.fetch
  split_ifs with h <;> simp only [h, Option.some.injEq, true_and, false_and]
  exact eq_comm

theorem State.fetch_eq_none {s : State} {a : Nat} : s.fetch a = none ↔ 4095 < a + 1 := by
  unfold State.fetch
  split_ifs with h <;> simp only [addrMax, true_iff, false_iff] at h ⊢ <;> omega

/-- Everything a store at `I` can do (spec/44_index_and_memory.md R103, R104). -/
theorem storeAtI_cases {bytes : List Byte} {s t : State} (h : storeAtI bytes s = .next t) :
    ((bytes.length = 0 ∨ s.base + bytes.length ≤ 4096) ∧ t = { s with mem := s.mem.writeMany s.base bytes }) ∨
      (bytes.length ≠ 0 ∧ 4096 < s.base + bytes.length ∧ t = s.raise .dataBounds) := by
  unfold storeAtI at h
  cases hw : s.memWrite s.base bytes with
  | none =>
    obtain ⟨h1, h2⟩ := State.memWrite_eq_none.1 hw
    rw [hw] at h
    exact .inr ⟨h1, h2, by simpa [eq_comm] using h⟩
  | some u =>
    obtain ⟨h1, h2⟩ := State.memWrite_eq_some.1 hw
    rw [hw] at h
    exact .inl ⟨h1, by simpa [h2, eq_comm] using h⟩

end Sys2Proof.Machine
end

