-- ==== Sys2Proof/Laws/Step.lean ====
section
/-! SUPPORT. What one step can do, said once: whose turn it is, and what each agent answers. -/

namespace Sys2Proof.Machine

/-! ## Turns -/

theorem State.turn_running_batch_zero {s : State} (hr : s.runState = .running) (hp : s.phase = .batch 0) :
    s.turn = .frameEnd := by simp [State.turn, hr, hp]

theorem State.turn_of_runsInstruction {s : State} (h : s.runsInstruction) : s.turn = .instruction := by
  obtain ⟨hr, ⟨hp, hi⟩ | ⟨n, hp⟩⟩ := h <;> simp [State.turn, State.turnBetween, *]

theorem State.turn_not_running {s : State} (hr : s.runState ≠ .running) : s.turn = s.turnBetween := by
  unfold State.turn; split <;> simp_all

/-- Everything the turn can be, with what it says of the state. -/
theorem State.turn_cases (s : State) :
    (s.runsInstruction ∧ s.turn = .instruction) ∨
    (s.runState = .running ∧ s.phase = .batch 0 ∧ s.turn = .frameEnd) ∨
    ((s.runState = .running → s.phase = .between) ∧ ∃ e rest, s.inputs = e :: rest ∧ s.turn = .input e rest) ∨
    (s.runState = .paused ∧ s.inputs = [] ∧ s.turn = .stuck .awaitingFrame) ∨
    (s.runState = .halted ∧ s.inputs = [] ∧ s.turn = .stuck .halted) := by
  unfold State.runsInstruction State.turn State.turnBetween
  rcases hr : s.runState <;> rcases hp : s.phase with _ | (_ | n) <;> rcases hi : s.inputs with _ | ⟨e, rest⟩ <;> simp

theorem State.turn_of_input {s : State} {e : Input} {rest : List Input} (hb : s.runState = .running → s.phase = .between)
    (hi : s.inputs = e :: rest) : s.turn = .input e rest := by
  unfold State.turn State.turnBetween
  rcases hr : s.runState <;> simp_all

/-! ## The executor (spec/40_step_and_control_flow.md R60) -/

theorem State.executeNext_of_fetch {s : State} {w : Word} (h : s.fetch s.pc.toNat = some w) :
    s.executeNext = exec (decode w) s.advance := by simp [State.executeNext, h]

theorem State.executeNext_of_bounds {s : State} (h : 4095 < s.pc.toNat + 1) :
    s.executeNext = .next (s.raise .fetchBounds) := by
  simp [State.executeNext, State.fetch_eq_none.2 h]

/-- Everything the executor can do. -/
theorem State.executeNext_cases {s : State} {r : Result} (h : s.executeNext = r) :
    (4095 < s.pc.toNat + 1 ∧ r = .next (s.raise .fetchBounds)) ∨
    (s.pc.toNat + 1 ≤ 4095 ∧
      r = exec (decode (wordOfBytes (s.mem.read s.pc.toNat) (s.mem.read (s.pc.toNat + 1)))) s.advance) := by
  subst h
  rcases Nat.lt_or_ge 4095 (s.pc.toNat + 1) with h | h
  · exact .inl ⟨h, State.executeNext_of_bounds h⟩
  · exact .inr ⟨h, State.executeNext_of_fetch (State.fetch_eq_some.2 ⟨h, rfl⟩)⟩

/-! ## The step -/

theorem step_of_runsInstruction {s : State} (h : s.runsInstruction) : step s = s.useStep.executeNext := by
  simp [step, State.turn_of_runsInstruction h]

theorem step_of_batch_zero {s : State} (hr : s.runState = .running) (hp : s.phase = .batch 0) :
    step s = .next s.frameEnd := by simp [step, State.turn_running_batch_zero hr hp]

theorem step_of_input {s : State} {e : Input} {rest : List Input} (hb : s.runState = .running → s.phase = .between)
    (hi : s.inputs = e :: rest) : step s = ({ s with inputs := rest } : State).accept e := by
  simp [step, State.turn_of_input hb hi]

/-- Everything a step that goes on can do. -/
theorem step_cases {s t : State} (h : step s = .next t) :
    (s.runsInstruction ∧ s.useStep.executeNext = .next t) ∨
    (s.runState = .running ∧ s.phase = .batch 0 ∧ t = s.frameEnd) ∨
    (∃ cmd keys rest, (s.runState = .running → s.phase = .between) ∧ s.inputs = .frame cmd keys :: rest ∧
      t = ({ s with inputs := rest } : State).frameTop stepsPerFrame cmd keys) ∨
    (∃ image rest, (s.runState = .running → s.phase = .between) ∧ s.inputs = .load image :: rest ∧
      image.length ≤ s.params.capacity ∧ t = ({ s with inputs := rest } : State).loaded image) := by
  unfold step at h
  rcases s.turn_cases with ⟨hi, ht⟩ | ⟨hr, hp, ht⟩ | ⟨hb, e, rest, hin, ht⟩ | ⟨-, -, ht⟩ | ⟨-, -, ht⟩ <;> rw [ht] at h
  · exact .inl ⟨hi, h⟩
  · exact .inr (.inl ⟨hr, hp, by simpa [eq_comm] using h⟩)
  · cases e with
    | frame cmd keys => exact .inr (.inr (.inl ⟨cmd, keys, rest, hb, hin, by simpa [State.accept, eq_comm] using h⟩))
    | load image =>
      simp only [State.accept, State.load] at h
      split_ifs at h with hc
      · exact .inr (.inr (.inr ⟨image, rest, hb, hin, hc, by simpa [eq_comm] using h⟩))
  · simp at h
  · simp at h

/-! ## Load (spec/70_reset_and_hazards.md R130) -/

/-- Everything a load can do: it fits and sets the state, or it does not fit. -/
theorem State.load_cases (s : State) (image : List Byte) :
    (image.length ≤ s.params.capacity ∧ s.load image = .ok (s.loaded image)) ∨
    (s.params.capacity < image.length ∧ s.load image = .error .imageTooLarge) := by
  unfold State.load
  rcases Nat.lt_or_ge s.params.capacity image.length with h | h
  · exact .inr ⟨h, if_neg (Nat.not_le.2 h)⟩
  · exact .inl ⟨h, if_pos h⟩

/-- What the state after a load that fits holds, whatever the parameters. -/
theorem State.justLoaded_loaded {s : State} {image : List Byte} (h : image.length ≤ s.params.capacity) :
    (s.loaded image).JustLoaded s.params image where
  params := rfl
  imageBytes j hj := by
    rw [State.loaded_mem, Memory.read_afterLoad h, if_pos (by omega)]
    simp [hj]
  glyphBytes a ha hb := by
    rw [State.loaded_mem, Memory.read_afterLoad h, if_neg (by omega), if_pos ha]
    simp [ha]
  otherBytes a ha hb := by
    rw [State.loaded_mem, Memory.read_afterLoad h, if_neg (by omega), if_neg (by omega)]
  memory := Memory.wf_afterLoad h
  registers r := by simp [State.reg]
  pixels px py := by simp [State.pixelAt]
  index := rfl
  pc := by
    have := s.params.entry_lt
    rw [State.loaded_pc, BitVec.toNat_setWidth]
    omega
  stack := rfl
  timers := ⟨rfl, rfl⟩
  keys := rfl
  running := rfl
  noRedraw := rfl
  gate := rfl
  noFault := rfl
  retained := rfl
  phase := rfl

/-! ## The frame top and end -/

/-- Everything the top of a frame can do (spec/60_exceptions.md R117, R118). -/
theorem State.frameTop_cases (s : State) (n : Nat) (cmd : Command) (keys : Keys) :
    (s.runState = .halted ∧ s.frameTop n cmd keys = s) ∨
    (s.runState ≠ .halted ∧ cmd = .quit ∧ s.frameTop n cmd keys = { s with runState := .halted, phase := .between }) ∨
    (s.runState ≠ .halted ∧ cmd ≠ .quit ∧ (s.command cmd).runState = .paused ∧
      s.frameTop n cmd keys = { s.command cmd with keypad := keys, phase := .between }) ∨
    (s.runState ≠ .halted ∧ cmd ≠ .quit ∧ (s.command cmd).runState = .running ∧
      s.frameTop n cmd keys = { s.command cmd with keypad := keys, phase := .batch n }) := by
  unfold State.frameTop
  by_cases hh : s.runState = .halted
  · simp [hh]
  · by_cases hq : cmd = .quit
    · simp [hh, hq, State.command]
    · rcases hr : (s.command cmd).runState
      · simp [hh, hq, hr, State.sampleKeys]
      · simp [hh, hq, hr, State.sampleKeys]
      · cases cmd <;> simp_all [State.command]

/-! ## Placing a word -/

theorem State.fetch_placeWord {s : State} (w : Word) (hm : s.mem.wf = true) (h : s.pc.toNat + 1 ≤ 4095) :
    (s.placeWord w).fetch (s.placeWord w).pc.toNat = some w := by
  have hw : (s.mem.write s.pc.toNat (highByte w)).wf = true := Memory.wf_write hm (by omega)
  rw [State.fetch_eq_some]
  refine ⟨h, ?_⟩
  have e1 : (s.placeWord w).pc = s.pc := rfl
  have e2 : (s.placeWord w).mem =
      (s.mem.write s.pc.toNat (highByte w)).write (s.pc.toNat + 1) (lowByte w) := by
    simp [State.placeWord, h]
  rw [e1, e2, Memory.read_write_same _ hw, Memory.read_write_other _ _ (by omega), Memory.read_write_same _ hm]
  exact (wordOfBytes_bytes w).symm

theorem State.placeWord_runsInstruction (s : State) (w : Word) : (s.placeWord w).runsInstruction :=
  ⟨rfl, .inl ⟨rfl, rfl⟩⟩

end Sys2Proof.Machine
end

