-- ==== Sys2Proof/Laws/Meanings.lean ====
section
/-! SUPPORT. What the shared operand forms compute, and everything each meaning with more than one outcome can do: the
inversions that proofs about `exec` cite instead of unfolding a meaning. -/

namespace Sys2Proof.Machine

/-! ## Operand forms -/

theorem flagByte_true : flagByte true = 1 := rfl

theorem flagByte_false : flagByte false = 0 := rfl

theorem flagByte_eq_one {f : Bool} : flagByte f = 1 ↔ f = true := by cases f <;> decide

theorem val_keyIndex (b : Byte) : (keyIndex b).val = b.toNat % 16 := by simp [keyIndex]

theorem toNat_zextAddr (nnn : Addr12) : (zextAddr nnn).toNat = nnn.toNat := by
  have := nnn.isLt
  simp [zextAddr]; omega

theorem toNat_zextByte (b : Byte) : (zextByte b).toNat = b.toNat := by
  have := b.isLt
  simp [zextByte]; omega

theorem shiftOperand_eq (x y : RegIdx) (s : State) :
    shiftOperand x y s = if Config.shiftSrc = .y then s.reg y else s.reg x := by
  unfold shiftOperand; split <;> simp_all

theorem mem_allKeys (k : RegIdx) : k ∈ allKeys := by revert k; decide

/-- No key is down. -/
theorem State.lowestKey_eq_none {s : State} : s.lowestKey = none ↔ ∀ k : RegIdx, s.keyDown k = false := by
  unfold State.lowestKey
  rw [List.find?_eq_none]
  exact ⟨fun h k => by simpa using h k (mem_allKeys k), fun h k _ => by simp [h k]⟩

/-- The lowest key that is down is found (spec/43_keypad_and_timers.md R92). -/
theorem State.lowestKey_eq_some {s : State} {k : RegIdx} (h : s.keyDown k = true)
    (hlow : ∀ j : RegIdx, j < k → s.keyDown j = false) : s.lowestKey = some k := by
  unfold State.lowestKey
  rw [List.find?_eq_some_iff_getElem]
  have hlen : allKeys.length = 16 := rfl
  have hget : ∀ j : RegIdx, ∀ hj : j.val < allKeys.length, allKeys[j.val] = j := by decide
  refine ⟨h, k.val, by rw [hlen]; exact k.isLt, hget k _, fun j hj => ?_⟩
  have hj16 : j < 16 := Nat.lt_trans hj k.isLt
  rw [hget ⟨j, hj16⟩ (by rw [hlen]; exact hj16), hlow ⟨j, hj16⟩ hj]
  rfl

theorem countDown_toNat (b : Byte) : (countDown b).toNat = b.toNat - 1 := by revert b; decide

/-! ## Runs of registers (spec/44_index_and_memory.md R104, R105) -/

theorem State.length_regsUpTo (s : State) (x : RegIdx) : (s.regsUpTo x).length = x.val + 1 := by
  have := x.isLt
  simp [State.regsUpTo]

theorem State.getD_regsUpTo (s : State) {x k : RegIdx} (h : k ≤ x) (d : Byte) :
    (s.regsUpTo x).getD k.val d = s.reg k := by
  have hk : k.val < (s.regsUpTo x).length := by
    rw [State.length_regsUpTo]; have : k.val ≤ x.val := h; omega
  rw [List.getD_eq_getElem _ _ hk]
  simp [State.regsUpTo, State.reg]

theorem RegFile.getElem_load (v : RegFile) (bs : List Byte) (k j : Nat) (hj : j < 16) :
    (RegFile.load v k bs)[j] = if k ≤ j then bs.getD (j - k) v[j] else v[j] := by
  induction bs generalizing v k with
  | nil => simp [RegFile.load]
  | cons b bs ih =>
    rw [RegFile.load, ih]
    rcases Nat.lt_trichotomy j k with h | h | h
    · simp [Nat.not_le.2 h, Nat.not_le.2 (Nat.lt_succ_of_lt h), Ne.symm (Nat.ne_of_lt h)]
    · subst h; simp
    · obtain ⟨d, rfl⟩ := Nat.exists_eq_add_of_lt h
      simp [show k + 1 ≤ k + d + 1 by omega, show k ≤ k + d + 1 by omega, show k + d + 1 - (k + 1) = d by omega,
        show k + d + 1 - k = d + 1 by omega, show k ≠ k + d + 1 by omega]

/-- Registers loaded from a run of memory bytes. -/
theorem State.reg_loadRegs_readMany (s : State) (m : Memory) (a : Nat) (x k : RegIdx) :
    (s.loadRegs (m.readMany a (x.val + 1))).reg k = if k ≤ x then m.read (a + k.val) else s.reg k := by
  simp only [State.reg, State.loadRegs_v]
  rw [RegFile.getElem_load]
  simp only [Nat.zero_le, if_true, Nat.sub_zero]
  split_ifs with h
  · have hk : k.val < (m.readMany a (x.val + 1)).length := by
      rw [Memory.length_readMany]; have : k.val ≤ x.val := h; omega
    rw [List.getD_eq_getElem _ _ hk, Memory.getElem_readMany]
  · rw [List.getD_eq_default]
    have : x.val < k.val := by simpa using h
    rw [Memory.length_readMany]; omega

/-! ## Everything a meaning can do -/

theorem execRet_cases {s t : State} (h : exec .ret s = .next t) :
    (s.stack = [] ∧ t = s.raise .stackUnderflow) ∨ ∃ a rest, s.stack = a :: rest ∧ t = s.popTo a rest := by
  simp only [exec, execRet] at h
  split at h
  · exact .inl ⟨‹_›, by simpa [eq_comm] using h⟩
  · exact .inr ⟨_, _, ‹_›, by simpa [eq_comm] using h⟩

theorem execCall_cases {nnn : Addr12} {s t : State} (h : exec (.call nnn) s = .next t) :
    (s.sp < 12 ∧ t = (s.push s.pc).setPc (zextAddr nnn)) ∨ (12 ≤ s.sp ∧ t = s.raise .stackOverflow) := by
  simp only [exec, execCall, stackDepth] at h
  split_ifs at h with hs
  · exact .inl ⟨hs, by simpa [eq_comm] using h⟩
  · exact .inr ⟨by omega, by simpa [eq_comm] using h⟩

theorem execLdVxK_cases {x : RegIdx} {s t : State} (h : exec (.ldVxK x) s = .next t) :
    (s.lowestKey = none ∧ t = s.rewind) ∨ ∃ k, s.lowestKey = some k ∧ t = s.setReg x (BitVec.ofNat 8 k.val) := by
  simp only [exec, execLdVxK] at h
  split at h
  · exact .inr ⟨_, ‹_›, by simpa [eq_comm] using h⟩
  · exact .inl ⟨‹_›, by simpa [eq_comm] using h⟩

theorem execLoadRegs_cases {x : RegIdx} {s t : State} (h : exec (.loadRegs x) s = .next t) :
    (s.base + (x.val + 1) ≤ 4096 ∧ t = s.loadRegs (s.mem.readMany s.base (x.val + 1))) ∨
      (4096 < s.base + (x.val + 1) ∧ t = s.raise .dataBounds) := by
  simp only [exec, execLoadRegs] at h
  split at h
  · exact .inr ⟨(State.memRead_eq_none.1 ‹_›).2, by simpa [eq_comm] using h⟩
  · obtain ⟨h1, rfl⟩ := State.memRead_eq_some.1 ‹_›
    exact .inl ⟨by omega, by simpa [eq_comm] using h⟩

/-- What DRW draws: the canvas after the loops of R86. -/
def State.canvas (s : State) (x y : RegIdx) (n : Nibble) : Canvas :=
  Canvas.drawRows (originX (s.reg x)) (spriteCols (originX (s.reg x))) (originY (s.reg y))
    (s.mem.readMany s.base (spriteRows n (originY (s.reg y)))) ⟨s.display, false⟩

/-- The bounds check of DRW is the one of `State.spriteInBounds`. -/
theorem State.spriteInBounds_iff {s : State} {y : RegIdx} {n : Nibble} :
    s.spriteInBounds y n ↔
      spriteRows n (originY (s.reg y)) = 0 ∨ s.base + spriteRows n (originY (s.reg y)) ≤ 4096 := by
  unfold State.spriteInBounds spriteRows originY
  have h2 : (s.reg y).toNat % dispH < 32 := Nat.mod_lt _ (by decide)
  generalize (s.reg y).toNat % dispH = y0 at *
  simp only [addrMax, dispH]
  constructor
  · intro h
    by_contra hc
    have := h (min n.toNat (32 - y0) - 1) (by omega) (by omega)
    omega
  · intro h r h1 h2; omega

theorem execDrw_of_inBounds {s : State} {x y : RegIdx} {n : Nibble} (h : s.spriteInBounds y n) :
    exec (.drw x y n) s =
      .next ((s.redraw (s.canvas x y n).display).setReg vf (flagByte (s.canvas x y n).collision)) := by
  simp only [exec, execDrw, State.memRead_eq_some.2 ⟨State.spriteInBounds_iff.1 h, rfl⟩, State.canvas]

theorem execDrw_of_outOfBounds {s : State} {x y : RegIdx} {n : Nibble} (h : ¬s.spriteInBounds y n) :
    exec (.drw x y n) s = .next (s.raise .dataBounds) := by
  rw [State.spriteInBounds_iff, not_or] at h
  have := (State.memRead_eq_none (s := s) (a := s.base) (n := spriteRows n (originY (s.reg y)))).2 ⟨h.1, by omega⟩
  simp only [exec, execDrw, this]

theorem execDrw_cases {x y : RegIdx} {n : Nibble} {s t : State} (h : exec (.drw x y n) s = .next t) :
    (s.spriteInBounds y n ∧ t = (s.redraw (s.canvas x y n).display).setReg vf (flagByte (s.canvas x y n).collision)) ∨
      (¬s.spriteInBounds y n ∧ t = s.raise .dataBounds) := by
  by_cases hb : s.spriteInBounds y n
  · exact .inl ⟨hb, by simpa [execDrw_of_inBounds hb, eq_comm] using h⟩
  · exact .inr ⟨hb, by simpa [execDrw_of_outOfBounds hb, eq_comm] using h⟩

/-- The pixels the loops of DRW cover are those of `State.spriteCovers`. -/
theorem State.spriteCovers_iff {s : State} {x y : RegIdx} {n : Nibble} {px py : Nat} (hpx : px < 64) (hpy : py < 32) :
    s.spriteCovers x y n px py = true ↔
      rowsCover (originX (s.reg x)) (spriteCols (originX (s.reg x))) (originY (s.reg y))
        (s.mem.readMany s.base (spriteRows n (originY (s.reg y)))) px py := by
  unfold State.spriteCovers rowsCover originX originY spriteCols spriteRows
  simp only [Bool.and_eq_true, decide_eq_true_eq, Memory.length_readMany]
  have h1 : (s.reg x).toNat % dispW < 64 := Nat.mod_lt _ (by decide)
  have h2 : (s.reg y).toNat % dispH < 32 := Nat.mod_lt _ (by decide)
  generalize (s.reg x).toNat % dispW = x0 at *
  generalize (s.reg y).toNat % dispH = y0 at *
  simp only [dispW, dispH]
  have hlen : (s.mem.readMany s.base (min n.toNat (32 - y0))).length = min n.toNat (32 - y0) :=
    Memory.length_readMany _ _ _
  constructor
  · rintro ⟨⟨⟨⟨a, b⟩, c⟩, d⟩, e⟩
    refine ⟨c, by omega, a, by omega, ?_⟩
    rw [List.getD_eq_getElem _ _ (by omega), Memory.getElem_readMany]; exact e
  · rintro ⟨a, b, c, d, e⟩
    rw [List.getD_eq_getElem _ _ (by omega), Memory.getElem_readMany] at e
    exact ⟨⟨⟨⟨c, by omega⟩, a⟩, by omega⟩, e⟩

theorem originX_add_spriteCols (b : Byte) : originX b + spriteCols (originX b) ≤ 64 := by
  have : b.toNat % dispW < 64 := Nat.mod_lt _ (by decide)
  unfold originX spriteCols; simp only [dispW] at *; omega

theorem originY_add_spriteRows (n : Nibble) (b : Byte) : originY b + spriteRows n (originY b) ≤ 32 := by
  have : b.toNat % dispH < 32 := Nat.mod_lt _ (by decide)
  unfold originY spriteRows; simp only [dispH] at *; omega

end Sys2Proof.Machine
end

