-- ==== Sys2Proof/Laws/PerInstr.lean ====
section
/-! SUPPORT. The per-instruction family OpClass: the class nibble `op` of an instruction's word (spec/30_encoding.md R46,
R49), constructor by constructor. -/

namespace Sys2Proof.Laws.OpClass

/-- The primary dispatch class of an instruction by the pattern column of R49; an unknown word keeps its own. -/
def opClass : Instr → Nat
  | .cls => 0x0
  | .ret => 0x0
  | .jp _ => 0x1
  | .call _ => 0x2
  | .seImm _ _ => 0x3
  | .sneImm _ _ => 0x4
  | .seReg _ _ => 0x5
  | .ldImm _ _ => 0x6
  | .addImm _ _ => 0x7
  | .ldReg _ _ => 0x8
  | .orReg _ _ => 0x8
  | .andReg _ _ => 0x8
  | .xorReg _ _ => 0x8
  | .addReg _ _ => 0x8
  | .subReg _ _ => 0x8
  | .shrReg _ _ => 0x8
  | .subnReg _ _ => 0x8
  | .shlReg _ _ => 0x8
  | .sneReg _ _ => 0x9
  | .ldI _ => 0xA
  | .jpV0 _ => 0xB
  | .rnd _ _ => 0xC
  | .drw _ _ _ => 0xD
  | .skp _ => 0xE
  | .sknp _ => 0xE
  | .ldVxDt _ => 0xF
  | .ldVxK _ => 0xF
  | .ldDtVx _ => 0xF
  | .ldStVx _ => 0xF
  | .addI _ => 0xF
  | .ldF _ => 0xF
  | .ldB _ => 0xF
  | .storeRegs _ => 0xF
  | .loadRegs _ => 0xF
  | .unknown w => w.toNat / 4096

/-- The word of the instruction has the class nibble of its row. -/
def Statement (i : Instr) : Prop := fieldOp (encode i) = opClass i

theorem cls : Statement .cls := rfl
theorem ret : Statement .ret := rfl
theorem jp (nnn : Addr12) : Statement (.jp nnn) := fieldOp_encAddr ..
theorem call (nnn : Addr12) : Statement (.call nnn) := fieldOp_encAddr ..
theorem seImm (x : RegIdx) (nn : Byte) : Statement (.seImm x nn) := fieldOp_encRegImm ..
theorem sneImm (x : RegIdx) (nn : Byte) : Statement (.sneImm x nn) := fieldOp_encRegImm ..
theorem seReg (x y : RegIdx) : Statement (.seReg x y) := fieldOp_encRegReg ..
theorem ldImm (x : RegIdx) (nn : Byte) : Statement (.ldImm x nn) := fieldOp_encRegImm ..
theorem addImm (x : RegIdx) (nn : Byte) : Statement (.addImm x nn) := fieldOp_encRegImm ..
theorem ldReg (x y : RegIdx) : Statement (.ldReg x y) := fieldOp_encRegReg ..
theorem orReg (x y : RegIdx) : Statement (.orReg x y) := fieldOp_encRegReg ..
theorem andReg (x y : RegIdx) : Statement (.andReg x y) := fieldOp_encRegReg ..
theorem xorReg (x y : RegIdx) : Statement (.xorReg x y) := fieldOp_encRegReg ..
theorem addReg (x y : RegIdx) : Statement (.addReg x y) := fieldOp_encRegReg ..
theorem subReg (x y : RegIdx) : Statement (.subReg x y) := fieldOp_encRegReg ..
theorem shrReg (x y : RegIdx) : Statement (.shrReg x y) := fieldOp_encRegReg ..
theorem subnReg (x y : RegIdx) : Statement (.subnReg x y) := fieldOp_encRegReg ..
theorem shlReg (x y : RegIdx) : Statement (.shlReg x y) := fieldOp_encRegReg ..
theorem sneReg (x y : RegIdx) : Statement (.sneReg x y) := fieldOp_encRegReg ..
theorem ldI (nnn : Addr12) : Statement (.ldI nnn) := fieldOp_encAddr ..
theorem jpV0 (nnn : Addr12) : Statement (.jpV0 nnn) := fieldOp_encAddr ..
theorem rnd (x : RegIdx) (nn : Byte) : Statement (.rnd x nn) := fieldOp_encRegImm ..
theorem drw (x y : RegIdx) (n : Nibble) : Statement (.drw x y n) := fieldOp_encRegReg ..
theorem skp (x : RegIdx) : Statement (.skp x) := fieldOp_encRegImm ..
theorem sknp (x : RegIdx) : Statement (.sknp x) := fieldOp_encRegImm ..
theorem ldVxDt (x : RegIdx) : Statement (.ldVxDt x) := fieldOp_encRegImm ..
theorem ldVxK (x : RegIdx) : Statement (.ldVxK x) := fieldOp_encRegImm ..
theorem ldDtVx (x : RegIdx) : Statement (.ldDtVx x) := fieldOp_encRegImm ..
theorem ldStVx (x : RegIdx) : Statement (.ldStVx x) := fieldOp_encRegImm ..
theorem addI (x : RegIdx) : Statement (.addI x) := fieldOp_encRegImm ..
theorem ldF (x : RegIdx) : Statement (.ldF x) := fieldOp_encRegImm ..
theorem ldB (x : RegIdx) : Statement (.ldB x) := fieldOp_encRegImm ..
theorem storeRegs (x : RegIdx) : Statement (.storeRegs x) := fieldOp_encRegImm ..
theorem loadRegs (x : RegIdx) : Statement (.loadRegs x) := fieldOp_encRegImm ..
theorem unknown (w : Word) : Statement (.unknown w) := fieldOp_eq w

end Sys2Proof.Laws.OpClass
end

