-- ==== Sys2Proof/Tests/Slice0.lean ====
section
/-! SUPPORT. Tests of the model against the spec, by kernel evaluation: words written out from spec/30_encoding.md, the
well-formedness smoke, the vectors of spec/95_test_vectors.md one step each (their labels S, T, A, G, K, M, LO stand in
the docstrings), and a witness for the hypotheses of every statement that has some. -/

set_option maxRecDepth 20000

namespace Sys2Proof.Tests

open Sys2Proof Sys2Proof.Machine

/-! ## Helpers -/

/-- The result is a next state of which `p` holds. -/
def after (r : Result) (p : State → Bool) : Bool :=
  match r with
  | .next t => p t
  | _ => false

/-- The reset state with some registers set. -/
def regs (l : List (RegIdx × Byte)) : State := l.foldl (fun s p => s.setReg p.1 p.2) State.reset

/-- A state with bytes put in memory from `a` on and `I` at `a`. -/
def putAt (s : State) (a : Nat) (bs : List Byte) : State :=
  { s with mem := s.mem.writeMany a bs, i := BitVec.ofNat 16 a }

/-- One step on the word `w` placed where the machine fetches next. -/
def run (w : Word) (s : State) : Result := step (s.withFetchWord 16 w.toNat)

/-- The indices of the set pixels. -/
def lit (s : State) : List Nat := (List.range 2048).filter s.display.pixel

/-- A stack of `n` entries. -/
def stackOf (n : Nat) : State := { State.reset with stack := List.replicate n 0x206 }

/-- A state with one input waiting. -/
def given (s : State) (e : Input) : State := { s with inputs := [e] }

/-- Fault entry with `f` and nothing else, from the state after the advance to `pc`. -/
def faulted (f : FaultCode) (pc : Word) (s t : State) : Bool := t == { s with fault := f, runState := .halted, pc := pc }

/-! ## Decoding: one word for each row of R49, written bit by bit (R46: op, X, Y or NN or NNN from bit 15 down) -/

/-- `00E0` (R49). -/
theorem test_decode_cls : decode 0b0000000011100000 = .cls := by decide

/-- `00EE` (R49). -/
theorem test_decode_ret : decode 0b0000000011101110 = .ret := by decide

/-- `1NNN` (R49). -/
theorem test_decode_jp : decode 0b0001001000110100 = .jp 0x234 := by decide

/-- `2NNN` (R49). -/
theorem test_decode_call : decode 0b0010101010111100 = .call 0xABC := by decide

/-- `3XNN` (R49). -/
theorem test_decode_seImm : decode 0b0011000100000100 = .seImm 1 0x04 := by decide

/-- `4XNN` (R49). -/
theorem test_decode_sneImm : decode 0b0100101000000111 = .sneImm 10 0x07 := by decide

/-- `5XY0` (R49). -/
theorem test_decode_seReg : decode 0b0101000100100000 = .seReg 1 2 := by decide

/-- `6XNN` (R49). -/
theorem test_decode_ldImm : decode 0b0110001110100101 = .ldImm 3 0xA5 := by decide

/-- `7XNN` (R49). -/
theorem test_decode_addImm : decode 0b0111111100000001 = .addImm 15 0x01 := by decide

/-- `8XY0` (R49). -/
theorem test_decode_ldReg : decode 0b1000000100100000 = .ldReg 1 2 := by decide

/-- `8XY1` (R49). -/
theorem test_decode_orReg : decode 0b1000000100100001 = .orReg 1 2 := by decide

/-- `8XY2` (R49). -/
theorem test_decode_andReg : decode 0b1000000100100010 = .andReg 1 2 := by decide

/-- `8XY3` (R49). -/
theorem test_decode_xorReg : decode 0b1000000100100011 = .xorReg 1 2 := by decide

/-- `8XY4` (R49). -/
theorem test_decode_addReg : decode 0b1000000100100100 = .addReg 1 2 := by decide

/-- `8XY5` (R49). -/
theorem test_decode_subReg : decode 0b1000000100100101 = .subReg 1 2 := by decide

/-- `8XY6` (R49). -/
theorem test_decode_shrReg : decode 0b1000000100100110 = .shrReg 1 2 := by decide

/-- `8XY7` (R49). -/
theorem test_decode_subnReg : decode 0b1000000100100111 = .subnReg 1 2 := by decide

/-- `8XYE` (R49). -/
theorem test_decode_shlReg : decode 0b1000000100101110 = .shlReg 1 2 := by decide

/-- `9XY0` (R49). -/
theorem test_decode_sneReg : decode 0b1001000100100000 = .sneReg 1 2 := by decide

/-- `ANNN` (R49). -/
theorem test_decode_ldI : decode 0b1010010101100111 = .ldI 0x567 := by decide

/-- `BNNN` (R49). -/
theorem test_decode_jpV0 : decode 0b1011100010011010 = .jpV0 0x89A := by decide

/-- `CXNN` (R49). -/
theorem test_decode_rnd : decode 0b1100011000001111 = .rnd 6 0x0F := by decide

/-- `DXYN` (R49). -/
theorem test_decode_drw : decode 0b1101011110001001 = .drw 7 8 9 := by decide

/-- `EX9E` (R49). -/
theorem test_decode_skp : decode 0b1110001110011110 = .skp 3 := by decide

/-- `EXA1` (R49). -/
theorem test_decode_sknp : decode 0b1110001110100001 = .sknp 3 := by decide

/-- `FX07` (R49). -/
theorem test_decode_ldVxDt : decode 0b1111010000000111 = .ldVxDt 4 := by decide

/-- `FX0A` (R49). -/
theorem test_decode_ldVxK : decode 0b1111010000001010 = .ldVxK 4 := by decide

/-- `FX15` (R49). -/
theorem test_decode_ldDtVx : decode 0b1111010000010101 = .ldDtVx 4 := by decide

/-- `FX18` (R49). -/
theorem test_decode_ldStVx : decode 0b1111010000011000 = .ldStVx 4 := by decide

/-- `FX1E` (R49). -/
theorem test_decode_addI : decode 0b1111010000011110 = .addI 4 := by decide

/-- `FX29` (R49). -/
theorem test_decode_ldF : decode 0b1111010000101001 = .ldF 4 := by decide

/-- `FX33` (R49). -/
theorem test_decode_ldB : decode 0b1111010000110011 = .ldB 4 := by decide

/-- `FX55` (R49). -/
theorem test_decode_storeRegs : decode 0b1111010001010101 = .storeRegs 4 := by decide

/-- `FX65` (R49). -/
theorem test_decode_loadRegs : decode 0b1111010001100101 = .loadRegs 4 := by decide

/-- The words of vectors T2, T3, T4 and T5: no row (R50, R61). -/
theorem test_decode_unknown :
    [0x0123, 0x01E0, 0x5121, 0x8128, 0x812F, 0xE100, 0xF100, 0xF1FF].all
      (fun w : Word => decode w == .unknown w) = true := by decide

/-- The first byte in memory is the high byte (spec/20_memory.md R32), and the rest is given back. -/
theorem test_decode_bytes : decodeBytes [0x12, 0x34, 0x56] = .ok (.jp 0x234, [0x56]) := by rfl

/-- One byte is no instruction (R45). -/
theorem test_decode_truncated : decodeBytes [0x12] = .error .truncated := by rfl

/-- A row's word in the table's numbering. -/
theorem test_decode_table_word : decodeTableWord 16 0x8014 = some (.addReg 0 1) := by decide

/-! ## Well-formedness: an ill-formed term of each class, which the check refuses (R50) -/


theorem test_wf_refuses_class0 : Instr.wf (.unknown 0x00E0) = false := by decide

theorem test_wf_refuses_class0_ret : Instr.wf (.unknown 0x00EE) = false := by decide

theorem test_wf_refuses_class5 : Instr.wf (.unknown 0x5120) = false := by decide

theorem test_wf_refuses_class8 : Instr.wf (.unknown 0x8124) = false := by decide

theorem test_wf_refuses_class8_shl : Instr.wf (.unknown 0x812E) = false := by decide

theorem test_wf_refuses_class9 : Instr.wf (.unknown 0x9120) = false := by decide

theorem test_wf_refuses_classE : Instr.wf (.unknown 0xE39E) = false := by decide

theorem test_wf_refuses_classF : Instr.wf (.unknown 0xF465) = false := by decide

theorem test_wf_refuses_class1 : Instr.wf (.unknown 0x1234) = false := by decide

theorem test_wf_refuses_classD : Instr.wf (.unknown 0xD125) = false := by decide

theorem test_wf_accepts_unknown :
    [0x0000, 0x0123, 0x01E0, 0x00E1, 0x5121, 0x8128, 0x812F, 0x912F, 0xE39F, 0xF466].all
      (fun w : Word => Instr.wf (.unknown w)) = true := by decide

/-! ## Step, unknown words, control transfer (vectors T) -/

/-- T3: `01E0` does not clear the display. -/
theorem test_unknown_word :
    after (run 0x01E0 { State.reset with display := Vector.replicate 32 1 })
      (fun t => t.pc == 0x202 && t.display == Vector.replicate 32 1 && t.fault == .none) = true := by decide

/-- T6. -/
theorem test_jp :
    after (run 0x1204 { State.reset with pc := 0x20A }) (fun t => t.pc == 0x204) = true := by decide

/-- T7: the next fetch faults and leaves `PC` where it is. -/
theorem test_jp_to_last_byte :
    after (step { State.reset with pc := 0xFFF }) (faulted .fetchBounds 0xFFF State.reset) = true := by decide

/-- T9. -/
theorem test_call :
    after (run 0x2210 { State.reset with pc := 0x204 }) (fun t => t.stack == [0x206] && t.pc == 0x210) = true := by decide

/-- T10. -/
theorem test_call_overflow :
    after (exec (.call 0x210) (stackOf 12)) (faulted .stackOverflow 0x200 (stackOf 12)) = true := by decide

/-- T12. -/
theorem test_ret :
    after (run 0x00EE { stackOf 1 with pc := 0x212 }) (fun t => t.sp == 0 && t.pc == 0x206) = true := by decide

/-- T13. -/
theorem test_ret_underflow :
    after (run 0x00EE { State.reset with pc := 0x212 })
      (fun t => t.fault == .stackUnderflow && t.pc == 0x214 && t.sp == 0 && t.runState == .halted) = true := by decide

/-- T14 and T15. -/
theorem test_se_imm :
    after (run 0x3100 { State.reset with pc := 0x208 }) (fun t => t.pc == 0x20C) = true ∧
    after (run 0x3100 { regs [(1, 4)] with pc := 0x208 }) (fun t => t.pc == 0x20A) = true := by decide

/-- T16 and T17. -/
theorem test_sne_imm :
    after (run 0x4A07 { regs [(10, 7)] with pc := 0x300 }) (fun t => t.pc == 0x302) = true ∧
    after (run 0x4A07 { regs [(10, 8)] with pc := 0x300 }) (fun t => t.pc == 0x304) = true := by decide

/-- T18. -/
theorem test_se_reg :
    after (run 0x5120 (regs [(1, 9), (2, 9)])) (fun t => t.pc == 0x204) = true := by decide

/-- T20 and T21. -/
theorem test_sne_reg :
    after (run 0x9120 (regs [(1, 9), (2, 8)])) (fun t => t.pc == 0x204) = true ∧
    after (run 0x9330 (regs [(3, 9)])) (fun t => t.pc == 0x202) = true := by decide

/-- T24: the offset is `V0`, not `V3`. -/
theorem test_jp_v0 :
    after (run 0xB300 (regs [(0, 1), (3, 0x50)])) (fun t => t.pc == 0x301) = true := by decide

/-- T23. -/
theorem test_jp_v0_not_masked :
    after (run 0xBFFF (regs [(0, 0xFF)])) (fun t => t.pc == 0x10FE) = true := by decide

/-- T25: the last word of memory is fetched. -/
theorem test_fetch_at_top :
    after (run 0x6005 { State.reset with pc := 0xFFE }) (fun t => t.reg 0 == 5 && t.pc == 0x1000) = true := by decide

/-- T26: a stack entry keeps 0x1000. -/
theorem test_call_at_top :
    after (run 0x2300 { State.reset with pc := 0xFFE }) (fun t => t.stack == [0x1000] && t.pc == 0x300) = true := by decide

/-! ## Immediates, ALU, random (vectors A) -/

/-- A2: a plain destination. -/
theorem test_ld_imm :
    after (run 0x6F00 (regs [(15, 1)])) (fun t => t.reg 15 == 0 && t.pc == 0x202) = true := by decide

/-- A3: no carry is written. -/
theorem test_add_imm :
    after (run 0x71FF (regs [(1, 5)])) (fun t => t.reg 1 == 4 && t.reg 15 == 0) = true := by decide

/-- A6. -/
theorem test_add_imm_vf :
    after (run 0x7F01 (regs [(15, 0xFF)])) (fun t => t.reg 15 == 0) = true := by decide

/-- A7. -/
theorem test_ld_reg :
    after (run 0x8120 (regs [(2, 0x7B)])) (fun t => t.reg 1 == 0x7B && t.reg 15 == 0) = true := by decide

/-- A8: the flag is not reset. -/
theorem test_or_reg :
    after (run 0x8121 (regs [(1, 0xF0), (2, 0x0F), (15, 1)])) (fun t => t.reg 1 == 0xFF && t.reg 15 == 1) = true := by decide

/-- A9. -/
theorem test_and_reg :
    after (run 0x8122 (regs [(1, 0xF3), (2, 0x3C), (15, 1)])) (fun t => t.reg 1 == 0x30 && t.reg 15 == 1) = true := by decide

/-- A10. -/
theorem test_xor_reg :
    after (run 0x8123 (regs [(1, 0xFF), (2, 0x0F), (15, 1)])) (fun t => t.reg 1 == 0xF0 && t.reg 15 == 1) = true := by decide

/-- A15 and A16: a sum of 255 and of 256. -/
theorem test_add_reg_boundary :
    after (run 0x8014 (regs [(0, 0xC8), (1, 0x37)])) (fun t => t.reg 0 == 0xFF && t.reg 15 == 0) = true ∧
    after (run 0x8014 (regs [(0, 0xC8), (1, 0x38)])) (fun t => t.reg 0 == 0 && t.reg 15 == 1) = true := by decide

/-- A18 and A20: `X = 15`, `Y = 15`. -/
theorem test_add_reg_vf :
    after (run 0x8F14 (regs [(15, 0xFF), (1, 1)])) (fun t => t.reg 15 == 1) = true ∧
    after (run 0x81F4 (regs [(1, 0xFF), (15, 1)])) (fun t => t.reg 1 == 0 && t.reg 15 == 1) = true := by decide

/-- A22 and A23. -/
theorem test_sub_reg :
    after (run 0x8015 (regs [(0, 5), (1, 5)])) (fun t => t.reg 0 == 0 && t.reg 15 == 1) = true ∧
    after (run 0x8015 (regs [(0, 0), (1, 1)])) (fun t => t.reg 0 == 0xFF && t.reg 15 == 0) = true := by decide

/-- A26. -/
theorem test_sub_reg_vf :
    after (run 0x8F15 (regs [(15, 5), (1, 3)])) (fun t => t.reg 15 == 1) = true := by decide

/-- A27 and A28. -/
theorem test_subn_reg :
    after (run 0x8017 (regs [(0, 3), (1, 10)])) (fun t => t.reg 0 == 7 && t.reg 15 == 1) = true ∧
    after (run 0x8017 (regs [(0, 10), (1, 3)])) (fun t => t.reg 0 == 0xF9 && t.reg 15 == 0) = true := by decide

/-- A31, both values of the open parameter. -/
theorem test_shr :
    (Config.shiftSrc = .x → after (exec (.shrReg 0 1) (regs [(0, 5), (1, 10)]))
      (fun t => t.reg 0 == 2 && t.reg 1 == 10 && t.reg 15 == 1) = true) ∧
    (Config.shiftSrc = .y → after (exec (.shrReg 0 1) (regs [(0, 5), (1, 10)]))
      (fun t => t.reg 0 == 5 && t.reg 1 == 10 && t.reg 15 == 0) = true) := by
  constructor <;> intro h <;> simp only [exec, execShrReg, shiftOperand, h] <;> decide

/-- A35: `X = Y = 15`, whatever the open parameter. -/
theorem test_shr_vf : after (exec (.shrReg 15 15) (regs [(15, 2)])) (fun t => t.reg 15 == 0) = true := by
  cases h : Config.shiftSrc <;> simp only [exec, execShrReg, shiftOperand, h] <;> decide

/-- A36, both values of the open parameter. -/
theorem test_shl :
    (Config.shiftSrc = .x → after (exec (.shlReg 0 1) (regs [(0, 0x81), (1, 1)]))
      (fun t => t.reg 0 == 2 && t.reg 15 == 1) = true) ∧
    (Config.shiftSrc = .y → after (exec (.shlReg 0 1) (regs [(0, 0x81), (1, 1)]))
      (fun t => t.reg 0 == 2 && t.reg 15 == 0) = true) := by
  constructor <;> intro h <;> simp only [exec, execShlReg, shiftOperand, h] <;> decide

/-- A39: `X = Y`, whatever the open parameter. -/
theorem test_shl_same : after (exec (.shlReg 0 0) (regs [(0, 0x80)])) (fun t => t.reg 0 == 0 && t.reg 15 == 1) = true := by
  cases h : Config.shiftSrc <;> simp only [exec, execShlReg, shiftOperand, h] <;> decide

/-- A40: a drawn `0xA7` masked by `0x0F`. -/
theorem test_rnd (h : Config.draw8 0 = 0xA7) :
    after (exec (.rnd 1 0x0F) State.reset) (fun t => t.reg 1 == 0x07 && t.draws == 1) = true := by
  simp only [exec, execRnd, show State.reset.draws = 0 from rfl, h]; decide

/-- A41: a mask of 0, any draw. -/
theorem test_rnd_zero : ∃ t, exec (.rnd 1 0) State.reset = .next t ∧ t.reg 1 = 0 :=
  ⟨_, rfl, by simp [State.reg, State.setReg]⟩

/-! ## Display (vectors G) -/

/-- G1. -/
theorem test_cls :
    after (run 0x00E0 { regs [(15, 7)] with display := Vector.replicate 32 5 })
      (fun t => t.display == blankDisplay && t.redrawPending && t.reg 15 == 7) = true := by decide

/-- `V0 = x`, `V1 = y`, a blank display, and a sprite at 0x300. -/
def sprite (x y : Byte) (bs : List Byte) : State := putAt (regs [(0, x), (1, y)]) 0x300 bs

/-- G2. -/
theorem test_drw_clips_columns :
    after (run 0xD011 (sprite 60 0 [0xFF]))
      (fun t => lit t == [60, 61, 62, 63] && t.reg 15 == 0 && t.redrawPending) = true := by decide

/-- G16. -/
theorem test_drw_collision :
    after (run 0xD011 { sprite 0 0 [0xC0] with display := blankDisplay.flip 0 })
      (fun t => lit t == [1] && t.reg 15 == 1) = true := by decide

/-! ## Keypad and timers (vectors K) -/

/-- K3: the index is masked to 4 bits. -/
theorem test_skp :
    after (run 0xE39E { regs [(3, 0x1A)] with keypad := 0x0400 }) (fun t => t.pc == 0x204) = true := by decide

/-- K2. -/
theorem test_skp_up :
    after (run 0xE39E { regs [(3, 5)] with keypad := 0x0400 }) (fun t => t.pc == 0x202) = true := by decide

/-- K4 and K5. -/
theorem test_sknp :
    after (run 0xE3A1 (regs [(3, 5)])) (fun t => t.pc == 0x204) = true ∧
    after (run 0xE3A1 { regs [(3, 5)] with keypad := 0x0020 }) (fun t => t.pc == 0x202) = true := by decide

/-- K6. -/
theorem test_wait_key_blocked :
    after (run 0xF00A (regs [(0, 9)])) (fun t => t.pc == 0x200 && t.reg 0 == 9) = true := by decide

/-- K7 and K9. -/
theorem test_wait_key_lowest :
    after (run 0xF00A { State.reset with keypad := 0x0088 }) (fun t => t.reg 0 == 3 && t.pc == 0x202) = true ∧
    after (run 0xFF0A { State.reset with keypad := 0x8000 }) (fun t => t.reg 15 == 15 && t.pc == 0x202) = true := by decide

/-- K10. -/
theorem test_ld_vx_dt :
    after (run 0xF407 { State.reset with dt := 0x2C }) (fun t => t.reg 4 == 0x2C && t.dt == 0x2C) = true := by decide

/-- K11. -/
theorem test_ld_dt_vx :
    after (run 0xF415 (regs [(4, 60)])) (fun t => t.dt == 60 && t.st == 0) = true := by decide

/-- K12: the gate waits for the tick. -/
theorem test_ld_st_vx :
    after (run 0xF018 (regs [(0, 3)])) (fun t => t.st == 3 && t.dt == 0 && t.audioGate == .off) = true := by decide

/-! ## Index and memory (vectors M) -/

/-- M2. -/
theorem test_ld_i :
    after (run 0xAFFF { State.reset with i := 0x1234 }) (fun t => t.i == 0x0FFF) = true := by decide

/-- M4 and M5: no mask to 12 bits, a wrap at 16. -/
theorem test_add_i :
    after (run 0xF21E { regs [(2, 1)] with i := 0x0FFF }) (fun t => t.i == 0x1000 && t.reg 15 == 0) = true ∧
    after (run 0xF21E { regs [(2, 1)] with i := 0xFFFF }) (fun t => t.i == 0) = true := by decide

/-- M7 and M9: no mask. -/
theorem test_ld_f :
    after (run 0xF029 (regs [(0, 0x0F)])) (fun t => t.i == 0x004B) = true ∧
    after (run 0xF029 (regs [(0, 0xFF)])) (fun t => t.i == 0x04FB) = true := by decide

/-- M10 and M12: the last three bytes of memory. -/
theorem test_ld_b :
    after (run 0xF033 { regs [(0, 255)] with i := 0xFFD }) (fun t => t.mem.readMany 0xFFD 3 == [2, 5, 5]) = true := by decide

/-- M13: no byte written. -/
theorem test_ld_b_out_of_bounds :
    after (exec (.ldB 0) { regs [(0, 255)] with i := 0xFFE })
      (faulted .dataBounds 0x200 { regs [(0, 255)] with i := 0xFFE }) = true := by decide

/-- M14. -/
theorem test_store_regs :
    after (run 0xF255 { regs [(0, 0x11), (1, 0x22), (2, 0x33), (3, 0x44)] with i := 0x400 })
      (fun t => t.mem.readMany 0x400 4 == [0x11, 0x22, 0x33, 0] && t.i == 0x400) = true := by decide

/-- M16. -/
theorem test_store_regs_out_of_bounds :
    after (exec (.storeRegs 15) { regs [(0, 1)] with i := 0xFF1 })
      (faulted .dataBounds 0x200 { regs [(0, 1)] with i := 0xFF1 }) = true := by decide

/-- M18. -/
theorem test_load_regs :
    after (run 0xF265 (putAt (regs [(3, 0x99)]) 0x300 [2, 5, 5]))
      (fun t => t.v.toList.take 4 == [2, 5, 5, 0x99] && t.i == 0x300) = true := by decide

/-- M19: glyph 0 after load. -/
theorem test_load_regs_glyph :
    after (run 0xF465 State.reset) (fun t => t.v.toList.take 5 == [0xF0, 0x90, 0x90, 0x90, 0xF0]) = true := by decide

/-! ## Frames, load, reset (vectors K, S, LO) -/

/-- K14: the gate after a tick from `ST = 2`. -/
theorem test_tick_on :
    after (step { State.reset with st := 2, phase := .batch 0 })
      (fun t => t.dt == 0 && t.st == 1 && t.audioGate == .on && t.phase == .between) = true := by decide

/-- K13. -/
theorem test_tick_off :
    after (step { State.reset with dt := 1, st := 1, phase := .batch 0 })
      (fun t => t.dt == 0 && t.st == 0 && t.audioGate == .off) = true := by decide

/-- K16. -/
theorem test_paused_frame :
    after (step (given { State.reset with runState := .paused, st := 5, audioGate := .on } (.frame .none 0x0012)))
      (fun t => t.keypad == 0x0012 && t.st == 5 && t.audioGate == .on && t.pc == 0x200 && t.phase == .between) = true := by decide

/-- K17. -/
theorem test_quit :
    after (step (given State.reset (.frame .quit 0x0012)))
      (fun t => t == { State.reset with runState := .halted }) = true := by decide

/-- K18. -/
theorem test_halted_frame :
    after (step (given { State.reset with runState := .halted } (.frame .reset 0x0012)))
      (fun t => t == { State.reset with runState := .halted }) = true := by decide

/-- K19 and LO5: Reset restores memory, also from Paused, before the keys are sampled. -/
theorem test_reset_command :
    after (step (given { putAt State.reset 0x200 [9, 9, 9] with runState := .paused, image := [0x60, 0x05] }
        (.frame .reset 0x0012)))
      (fun t => t.mem.readMany 0x200 3 == [0x60, 0x05, 0] && t.keypad == 0x0012 && t.runState == .running && t.i == 0) = true := by
  simp only [step, given, State.turn, State.turnBetween, State.accept, State.frameTop, after]
  decide

/-- LO2. -/
theorem test_load :
    after (step (given State.reset (.load [0x60, 0x05])))
      (fun t => t.mem == [(0x200, 0x60), (0x201, 0x05)] && t.pc == 0x200 && t.outputs.length == 2) = true := by decide

/-- The step of a machine between frames takes the load that waits. -/
theorem step_given_load (image : List Byte) :
    step (given State.reset (.load image)) = State.reset.accept (.load image) := rfl

/-- S8, LO3: an image of exactly the capacity is loaded. -/
theorem test_load_at_capacity :
    step (given State.reset (.load (List.replicate 3584 1))) = .next (State.reset.loaded (List.replicate 3584 1)) := by
  rw [step_given_load, State.accept, State.load, if_pos (by rw [List.length_replicate]; decide)]

/-- S8, LO4: an image one byte longer is not. -/
theorem test_load_above_capacity :
    step (given State.reset (.load (List.replicate 3585 1))) = .fault .imageTooLarge := by
  rw [step_given_load, State.accept, State.load, if_neg (by rw [List.length_replicate]; decide)]

/-- R130 with other parameters: the image from their `ENTRY`, their glyph table, `PC` at their `ENTRY`. -/
theorem test_boot_other_params :
    (State.boot { entry := 0x600, glyphs := Vector.replicate 80 7 } [0x60, 0x05]).toOption.any (fun t =>
      t.mem.readMany 0x5FF 4 == [0, 0x60, 0x05, 0] && t.mem.readMany 0x4E 3 == [7, 7, 0] && t.pc == 0x600 &&
        t.mem.wf) = true := by decide

/-- LO1: the glyph table, and nothing listed in memory. -/
theorem test_reset_memory : State.reset.mem.wf = true ∧ State.reset.mem.readMany 0 80 = glyphTable := by decide

/-- Writing back what an unlisted address reads as removes the entry: glyph 0 starts with 0xF0. -/
theorem test_memory_canonical : ((State.reset.mem.write 0 1).write 0x300 7).write 0 0xF0 = [(0x300, 7)] := by decide

/-! ## Witnesses: for each statement with hypotheses, concrete values that meet them, clause by clause at the boundary -/

theorem witness_DecodeOfEncodeIsIdentity :
    Instr.wf (.drw 15 15 15) = true ∧ Instr.wf (.unknown 0x812F) = true := by decide

theorem witness_DecodeFollowsOpcodeMap :
    (∃ r ∈ opcodeRows, r.selects 0xDFFF = true) ∧ (∃ r ∈ opcodeRows, r.selects 0x00E0 = true) := by decide

theorem witness_UnknownWordsSelectNoRow :
    isUnknownWord 0x812F = true ∧ decode 0x812F = .unknown 0x812F ∧ isUnknownWord 0x812E = false := by decide

theorem witness_StepRunsDecodedInstruction :
    ({ State.reset with pc := 0xFFE } : State).runsInstruction ∧
    ({ State.reset with pc := 0xFFE, phase := .batch 1 } : State).runsInstruction ∧
    ({ State.reset with pc := 0xFFE } : State).pc.toNat ≤ 0xFFE ∧
    decodeBytes [State.reset.mem.read 0xFFE, State.reset.mem.read 0xFFF] = .ok (.unknown 0, []) :=
  ⟨⟨rfl, .inl ⟨rfl, rfl⟩⟩, ⟨rfl, .inr ⟨0, rfl⟩⟩, by decide, rfl⟩

theorem witness_FetchAboveMemoryFaults :
    ({ State.reset with pc := 0xFFF } : State).runsInstruction ∧ 0xFFE < ({ State.reset with pc := 0xFFF } : State).pc.toNat :=
  ⟨⟨rfl, .inl ⟨rfl, rfl⟩⟩, by decide⟩

theorem witness_PlacedWordRuns :
    ({ State.reset with pc := 0xFFE } : State).mem.wf = true ∧ ({ State.reset with pc := 0xFFE } : State).pc.toNat ≤ 0xFFE := by
  decide

theorem witness_StoreIsSeenByNextFetch :
    State.reset.mem.wf = true ∧ ({ State.reset with i := 0xFF0 } : State).i.toNat + (15 : RegIdx).val ≤ 0xFFF ∧
    (15 : RegIdx).val = (14 : RegIdx).val + 1 ∧ ({ State.reset with i := 0xFFD } : State).i.toNat + 2 ≤ 0xFFF := by decide

theorem witness_UnknownWordOnlyAdvances :
    State.reset.runsInstruction ∧ State.reset.fetch State.reset.pc.toNat = some 0 ∧ isUnknownWord 0 = true :=
  ⟨⟨rfl, .inl ⟨rfl, rfl⟩⟩, by decide, by decide⟩

theorem witness_CallPushesReturnAddress : (stackOf 11).sp < 12 ∧ 12 ≤ (stackOf 12).sp := by decide

theorem witness_ReturnPopsStack : 0 < (stackOf 1).sp ∧ (stackOf 0).sp = 0 := by decide

theorem witness_ReturnUndoesCall : (stackOf 11).sp < 12 := by decide

/-- The clause on `V[X]` is met by `X = 0`, and `X = 15` is the form without it; both carries occur. -/
theorem witness_AddWritesSumAndCarry :
    (0 : RegIdx) ≠ 15 ∧ ((regs [(0, 0xC8), (1, 0x38)]).reg 0).toNat + ((regs [(0, 0xC8), (1, 0x38)]).reg 1).toNat > 255 ∧
    ¬((regs [(0, 0xC8), (1, 0x37)]).reg 0).toNat + ((regs [(0, 0xC8), (1, 0x37)]).reg 1).toNat > 255 := by decide

theorem witness_SubtractWritesNoBorrow :
    (14 : RegIdx) ≠ 15 ∧ ((regs [(0, 5), (1, 5)]).reg 0).toNat ≥ ((regs [(0, 5), (1, 5)]).reg 1).toNat ∧
    ¬((regs [(0, 0), (1, 1)]).reg 0).toNat ≥ ((regs [(0, 0), (1, 1)]).reg 1).toNat := by decide

theorem witness_ShiftWritesBitShiftedOut :
    (0x81 : Byte) = (if Config.shiftSrc = .y then (regs [(0, 0x81), (1, 0x81)]).reg 1 else (regs [(0, 0x81), (1, 0x81)]).reg 0) ∧
    (0 : RegIdx) ≠ 15 := by
  refine ⟨?_, by decide⟩
  split <;> decide

theorem witness_OnlyFlagWritersTouchVF :
    ∃ t, exec (.addReg 0 1) (regs [(0, 0xFF), (1, 1)]) = .next t ∧ t.reg 15 ≠ (regs [(0, 0xFF), (1, 1)]).reg 15 :=
  ⟨_, rfl, by decide⟩

theorem witness_FlagIsZeroOrOne :
    (Instr.subReg 0 1).writesFlag = true ∧ ∃ t, exec (.subReg 0 1) (regs [(15, 9)]) = .next t ∧ t.fault = .none :=
  ⟨rfl, _, rfl, rfl⟩

/-- In bounds with a row clipped away, out of bounds by one row, a covered pixel that is set, and one that is not. -/
theorem witness_DrawXorsCoveredPixels :
    ({ regs [(1, 31)] with i := 0xFFF } : State).spriteInBounds 1 2 ∧
    ¬({ regs [(1, 0)] with i := 0xFFF } : State).spriteInBounds 1 2 ∧
    ({ sprite 0 0 [0xC0] with display := blankDisplay.flip 0 } : State).pixelAt 0 0 = true ∧
    ({ sprite 0 0 [0xC0] with display := blankDisplay.flip 0 } : State).spriteCovers 0 1 1 0 0 = true ∧
    ({ sprite 0 0 [0x40] with display := blankDisplay.flip 0 } : State).spriteCovers 0 1 1 0 0 = false := by
  unfold State.spriteInBounds; decide

theorem witness_DrawTwiceRestoresDisplay :
    (0 : RegIdx) ≠ 15 ∧ (1 : RegIdx) ≠ 15 ∧ (putAt (regs [(0, 63), (1, 31)]) 0xFFF [0x80]).spriteInBounds 1 15 := by
  unfold State.spriteInBounds; decide

theorem witness_WaitForKey :
    (∀ k, k < 16 → State.reset.keypad.getLsbD k = false) ∧
    ({ State.reset with keypad := 0x8000 } : State).keypad.getLsbD 15 = true ∧
    (∀ j, j < 15 → ({ State.reset with keypad := 0x8000 } : State).keypad.getLsbD j = false) ∧
    ({ State.reset with keypad := 0x8001 } : State).keypad.getLsbD 0 = true := by decide

theorem witness_BlockedWaitIsIdle :
    (State.reset.withFetchWord 16 0xFF0A).runsInstruction ∧
    (State.reset.withFetchWord 16 0xFF0A).fetch (State.reset.withFetchWord 16 0xFF0A).pc.toNat = some (encode (.ldVxK 15)) ∧
    (State.reset.withFetchWord 16 0xFF0A).keypad = 0 :=
  ⟨⟨rfl, .inl ⟨rfl, rfl⟩⟩, by decide, rfl⟩

theorem witness_StoreBcd :
    State.reset.mem.wf = true ∧ ({ State.reset with i := 0xFFD } : State).i.toNat + 2 ≤ 0xFFF ∧
    0xFFF < ({ State.reset with i := 0xFFE } : State).i.toNat + 2 := by decide

theorem witness_DumpRegisters :
    State.reset.mem.wf = true ∧ ({ State.reset with i := 0xFF0 } : State).i.toNat + (15 : RegIdx).val ≤ 0xFFF ∧
    0xFFF < ({ State.reset with i := 0xFF1 } : State).i.toNat + (15 : RegIdx).val := by decide

theorem witness_LoadRegisters :
    ({ State.reset with i := 0xFFF } : State).i.toNat + (0 : RegIdx).val ≤ 0xFFF ∧
    0xFFF < ({ State.reset with i := 0x1000 } : State).i.toNat + (0 : RegIdx).val := by decide

theorem witness_DumpThenLoadRoundTrip :
    State.reset.mem.wf = true ∧ ({ State.reset with i := 0xFF0 } : State).i.toNat + (15 : RegIdx).val ≤ 0xFFF := by decide

theorem witness_EveryInstructionGoesOn : State.reset.runsInstruction := ⟨rfl, .inl ⟨rfl, rfl⟩⟩

/-- A fault of each kind, and an instruction that records none. -/
theorem witness_FaultsArePreciseAndListed :
    (∃ t, exec (.call 0) (stackOf 12) = .next t ∧ t.fault = .stackOverflow) ∧
    (∃ t, exec .ret (stackOf 0) = .next t ∧ t.fault = .stackUnderflow) ∧
    (∃ t, exec (.ldB 0) { State.reset with i := 0xFFE } = .next t ∧ t.fault = .dataBounds) ∧
    (∃ t, exec (.storeRegs 15) { State.reset with i := 0xFF1 } = .next t ∧ t.fault = .dataBounds) ∧
    (∃ t, exec (.loadRegs 0) { State.reset with i := 0x1000 } = .next t ∧ t.fault = .dataBounds) ∧
    (∃ t, exec (.drw 0 0 2) { State.reset with i := 0xFFF } = .next t ∧ t.fault = .dataBounds) ∧
    (∃ t, exec .cls State.reset = .next t ∧ t.fault = .none) :=
  ⟨⟨_, rfl, rfl⟩, ⟨_, rfl, rfl⟩, ⟨_, rfl, rfl⟩, ⟨_, rfl, rfl⟩, ⟨_, rfl, rfl⟩, ⟨_, rfl, rfl⟩, ⟨_, rfl, rfl⟩⟩

theorem witness_OnlyStoresWriteMemory : ∃ t, exec (.loadRegs 15) State.reset = .next t ∧ Instr.stores (.loadRegs 15) = false :=
  ⟨_, rfl, rfl⟩

theorem witness_OnlyDrawingTouchesDisplay : ∃ t, exec (.ldB 15) State.reset = .next t ∧ Instr.draws (.ldB 15) = false :=
  ⟨_, rfl, rfl⟩

/-- Each guarded field does change under some instruction. -/
theorem witness_InstructionsLeaveTheRestAlone :
    (∃ t, exec (.ldDtVx 0) (regs [(0, 1)]) = .next t ∧ t.dt ≠ (regs [(0, 1)]).dt) ∧
    (∃ t, exec (.ldStVx 0) (regs [(0, 1)]) = .next t ∧ t.st ≠ (regs [(0, 1)]).st) ∧
    (∃ t, exec .ret (stackOf 1) = .next t ∧ t.stack ≠ (stackOf 1).stack) ∧
    (∃ t, exec (.rnd 0 0) State.reset = .next t ∧ t.draws ≠ State.reset.draws) ∧
    (∃ t, exec (.ldI 1) State.reset = .next t ∧ t.i ≠ State.reset.i) ∧
    (∃ t, exec (.jp 0) State.reset = .next t ∧ t.pc ≠ State.reset.pc) :=
  ⟨⟨_, rfl, by decide⟩, ⟨_, rfl, by decide⟩, ⟨_, rfl, by decide⟩, ⟨_, rfl, by decide⟩, ⟨_, rfl, by decide⟩,
    ⟨_, rfl, by decide⟩⟩

/-- Every command, on a Running and on a Paused machine. -/
theorem witness_FrameTopAppliesCommand :
    [Command.none, .pause, .resume, .reset, .quit].all (fun c =>
      decide ((given State.reset (.frame c 0x0012)).phase = .between ∧ State.reset.runState ≠ .halted ∧
        (given State.reset (.frame c 0x0012)).inputs = .frame c 0x0012 :: [])) = true ∧
    (given { State.reset with runState := .paused } (.frame .none 0x0012)).runState = .paused := by decide

theorem witness_FrameEndTicksAndPresents :
    ({ State.reset with st := 1, redrawPending := true, phase := .batch 0 } : State).runState = .running ∧
    ({ State.reset with st := 1, redrawPending := true, phase := .batch 0 } : State).phase = .batch 0 := by decide

/-- A sound timer of 2: the gate is on after the first tick, off after the second. -/
theorem witness_GateIsOnForNMinusOneTicks : 1 ≤ 1 ∧ 1 < ({ State.reset with st := 2 } : State).st.toNat ∧
    ¬2 < ({ State.reset with st := 2 } : State).st.toNat := by decide

theorem witness_StepsRefineFrame : (given State.reset (.frame .none 0)).phase = .between ∧
    (given State.reset (.frame .none 0)).inputs = .frame .none 0 :: [] := by decide

theorem witness_HaltedIsAbsorbing :
    ({ State.reset with runState := .halted } : State).runState = .halted ∧
    ({ State.reset with runState := .halted } : State).inputs = [] ∧
    (given { State.reset with runState := .halted } (.frame .resume 0)).inputs = .frame .resume 0 :: [] ∧
    ∃ t, step (given { State.reset with runState := .halted } (.load [])) = .next t :=
  ⟨rfl, rfl, rfl, _, rfl⟩

/-- Each of the three stops is reached. -/
theorem witness_StepStopsExactlyHere :
    step { State.reset with runState := .halted } = .fault .halted ∧
    step { State.reset with runState := .paused } = .fault .awaitingFrame ∧
    step (given State.reset (.load (List.replicate 3585 1))) = .fault .imageTooLarge :=
  ⟨rfl, rfl, test_load_above_capacity⟩

theorem witness_LoadEstablishesResetState :
    (given State.reset (.load [0x60, 0x05])).phase = .between ∧
    (given State.reset (.load [0x60, 0x05])).inputs = .load [0x60, 0x05] :: [] ∧
    (List.replicate 3584 (1 : Byte)).length ≤ memSize - State.reset.params.entry.toNat ∧
    memSize - State.reset.params.entry.toNat < (List.replicate 3585 (1 : Byte)).length :=
  ⟨rfl, rfl, by rw [List.length_replicate]; decide, by rw [List.length_replicate]; decide⟩

/-- Parameters that are not the standard ones: the last address as `ENTRY`, and a glyph table of zeros. -/
def oddParams : Params := { entry := 0xFFF, glyphs := Vector.replicate 80 0 }

theorem witness_BootTakesEveryParameter :
    [0x60].length ≤ memSize - oddParams.entry.toNat ∧ memSize - oddParams.entry.toNat < [0x60, 0x05].length := by decide

/-- Each kind of step: an instruction, a frame end, a frame top, a load. -/
theorem witness_ConfigurationNeverChanges :
    (∃ t, step State.reset = .next t) ∧ (∃ t, step { State.reset with phase := .batch 0 } = .next t) ∧
    (∃ t, step (given State.reset (.frame .reset 0)) = .next t) ∧ (∃ t, step (given State.reset (.load [])) = .next t) :=
  ⟨⟨_, rfl⟩, ⟨_, rfl⟩, ⟨_, rfl⟩, ⟨_, rfl⟩⟩

theorem witness_SoftResetReloadsImage :
    (given { State.reset with runState := .paused } (.frame .reset 0x0012)).phase = .between ∧
    (given { State.reset with runState := .paused } (.frame .reset 0x0012)).runState ≠ .halted ∧
    (given { State.reset with runState := .paused } (.frame .reset 0x0012)).inputs = .frame .reset 0x0012 :: [] := by decide

/-- A full stack and the highest `PC` the invariant allows. -/
theorem fullStack_inv : ({ stackOf 12 with pc := 0x10FE } : State).Inv :=
  ⟨by decide, by decide, fun a h => by rw [List.eq_of_mem_replicate h]; decide, by decide, by decide, by decide, by decide⟩

theorem witness_StepKeepsInvariant :
    ({ stackOf 12 with pc := 0x10FE } : State).Inv ∧ ∃ t, step { stackOf 12 with pc := 0x10FE } = .next t :=
  ⟨fullStack_inv, _, rfl⟩

/-- Two different states, equal in all that is read. -/
theorem witness_EqualReadsAreEqualData :
    ({ stackOf 12 with pc := 0x10FE } : State).Inv ∧ (stackOf 12).Inv ∧
    MemKeeps { stackOf 12 with pc := 0x10FE } (stackOf 12) ∧ RegsKeep [] { stackOf 12 with pc := 0x10FE } (stackOf 12) ∧
    ∀ px py, px < 64 → py < 32 → (stackOf 12).pixelAt px py = ({ stackOf 12 with pc := 0x10FE } : State).pixelAt px py :=
  ⟨fullStack_inv, { fullStack_inv with pc := by decide }, fun _ => rfl,
    fun _ _ => rfl, fun _ _ _ _ => rfl⟩

end Sys2Proof.Tests
end

/-! PROOFS. Everything an instruction can do to the state, said once: proofs about what `exec` writes, leaves alone or keeps
split on `Effect` and not on the 35 meanings. -/

namespace Sys2Proof.Machine

/-- When an instruction raises a fault, and which one (spec/60_exceptions.md R110). The fetch fault is no instruction's. -/
def State.raises (s : State) (i : Instr) : FaultCode → Prop
  | .stackOverflow => (∃ nnn, i = .call nnn) ∧ 12 ≤ s.sp
  | .stackUnderflow => i = .ret ∧ s.sp = 0
  | .dataBounds => s.dataOutOfBounds i
  | .fetchBounds | .none => False

/-- What instruction `i` can make of `s`: one constructor per kind of update, with the class of instructions that make it
and the guard under which they do. -/
inductive Effect (i : Instr) (s : State) : State → Prop
  | nothing : Effect i s s
  | result (x : RegIdx) (b : Byte) (hd : i.hasDest x = true) : Effect i s (s.setReg x b)
  | resultFlag (x : RegIdx) (b : Byte) (f : Bool) (hd : i.hasDest x = true) (hf : i.writesFlag = true) :
      Effect i s (s.setResultFlag x b (flagByte f))
  | random (x : RegIdx) (nn : Byte) (hi : i = .rnd x nn) : Effect i s (s.drawn.setReg x (Config.draw8 s.draws &&& nn))
  | load (x : RegIdx) (hi : i = .loadRegs x) (hb : s.base + (x.val + 1) ≤ 4096) :
      Effect i s (s.loadRegs (s.mem.readMany s.base (x.val + 1)))
  | store (bytes : List Byte) (hi : i.stores = true) (hb : bytes.length = 0 ∨ s.base + bytes.length ≤ 4096) :
      Effect i s { s with mem := s.mem.writeMany s.base bytes }
  | jump (a : Word) (hi : i.writesPc = true) (ha : a.toNat ≤ 0x10FE) : Effect i s (s.setPc a)
  | skip (c : Bool) (hi : i.writesPc = true) : Effect i s (s.skipIf c)
  | wait (hi : i.writesPc = true) : Effect i s s.rewind
  | call (nnn : Addr12) (hi : i = .call nnn) (hsp : s.sp < 12) : Effect i s ((s.push s.pc).setPc (zextAddr nnn))
  | ret (a : Word) (rest : List Word) (hi : i = .ret) (hs : s.stack = a :: rest) : Effect i s (s.popTo a rest)
  | index (a : Word) (hi : i.writesI = true) : Effect i s (s.setI a)
  | delay (x : RegIdx) (hi : i = .ldDtVx x) : Effect i s (s.setDt (s.reg x))
  | sound (x : RegIdx) (hi : i = .ldStVx x) : Effect i s (s.setSt (s.reg x))
  | clear (hi : i = .cls) : Effect i s (s.redraw blankDisplay)
  | sprite (d : Display) (f : Bool) (hi : i.draws = true) (hf : i.writesFlag = true) :
      Effect i s ((s.redraw d).setReg vf (flagByte f))
  | fault (f : FaultCode) (hf : s.raises i f) : Effect i s (s.raise f)

/-- A store at `I` writes its bytes or raises `DataBounds`. -/
theorem Effect.of_storeAtI {i : Instr} {s t : State} {bytes : List Byte} (h : storeAtI bytes s = .next t)
    (hi : i.stores = true) (hf : 4096 < s.base + bytes.length → s.dataOutOfBounds i) : Effect i s t := by
  obtain ⟨hb, rfl⟩ | ⟨-, hb, rfl⟩ := storeAtI_cases h
  · exact .store bytes hi hb
  · exact .fault .dataBounds (hf hb)

theorem toNat_zextByte_add_zextAddr_le (b : Byte) (nnn : Addr12) : (zextByte b + zextAddr nnn).toNat ≤ 0x10FE := by
  have hb := b.isLt
  have hn := nnn.isLt
  rw [BitVec.toNat_add, toNat_zextByte, toNat_zextAddr]
  omega

theorem toNat_zextAddr_le (nnn : Addr12) : (zextAddr nnn).toNat ≤ 0xFFF := by
  have hn := nnn.isLt
  rw [toNat_zextAddr]
  omega

/-- Everything an instruction that answers a next state can have done. -/
theorem effect_of_exec {i : Instr} {s t : State} (h : exec i s = .next t) : Effect i s t := by
  cases i with
  | unknown w => cases h; exact .nothing
  | ldImm x _ | addImm x _ | ldReg x _ | orReg x _ | andReg x _ | xorReg x _ | ldVxDt x =>
    cases h; exact .result x _ (beq_self_eq_true x)
  | addReg x _ | subReg x _ | shrReg x _ | subnReg x _ | shlReg x _ =>
    cases h; exact .resultFlag x _ _ (beq_self_eq_true x) rfl
  | rnd x nn => cases h; exact .random x nn rfl
  | seImm _ _ | sneImm _ _ | seReg _ _ | sneReg _ _ | skp _ | sknp _ => cases h; exact .skip _ rfl
  | jp nnn => cases h; exact .jump _ rfl ((toNat_zextAddr_le nnn).trans (by decide))
  | jpV0 nnn => cases h; exact .jump _ rfl (toNat_zextByte_add_zextAddr_le _ nnn)
  | call nnn =>
    obtain ⟨hsp, rfl⟩ | ⟨hsp, rfl⟩ := execCall_cases h
    · exact .call nnn rfl hsp
    · exact .fault .stackOverflow ⟨⟨nnn, rfl⟩, hsp⟩
  | ret =>
    obtain ⟨hs, rfl⟩ | ⟨a, rest, hs, rfl⟩ := execRet_cases h
    · exact .fault .stackUnderflow ⟨rfl, by rw [State.sp, hs, List.length_nil]⟩
    · exact .ret a rest rfl hs
  | ldVxK x =>
    obtain ⟨-, rfl⟩ | ⟨k, -, rfl⟩ := execLdVxK_cases h
    · exact .wait rfl
    · exact .result x _ (beq_self_eq_true x)
  | ldI _ | addI _ | ldF _ => cases h; exact .index _ rfl
  | ldDtVx x => cases h; exact .delay x rfl
  | ldStVx x => cases h; exact .sound x rfl
  | cls => cases h; exact .clear rfl
  | drw x y n =>
    obtain ⟨-, rfl⟩ | ⟨hb, rfl⟩ := execDrw_cases h
    · exact .sprite _ _ rfl rfl
    · exact .fault .dataBounds hb
  | ldB x =>
    refine .of_storeAtI h rfl fun hb => ?_
    simp only [bcdDigits, List.length_cons, List.length_nil] at hb
    simp only [State.dataOutOfBounds]
    omega
  | storeRegs x =>
    refine .of_storeAtI h rfl fun hb => ?_
    rw [State.length_regsUpTo] at hb
    simp only [State.dataOutOfBounds]
    omega
  | loadRegs x =>
    obtain ⟨hb, rfl⟩ | ⟨hb, rfl⟩ := execLoadRegs_cases h
    · exact .load x rfl hb
    · refine .fault .dataBounds ?_
      simp only [State.raises, State.dataOutOfBounds]
      omega

end Sys2Proof.Machine

/-! PROOFS. The statements about the state (spec/10_state.md): what each instruction may write, the invariant, and the
canonical form of the data. -/

namespace Sys2Proof.Machine

/-! ## What an instruction may write -/

/-- Settles O40: `draws` rules out the two effects that redraw. -/
theorem onlyDrawingTouchesDisplay : Obligations.OnlyDrawingTouchesDisplay := by
  intro i s t h hdraws
  cases effect_of_exec h with
  | clear hi => simp [hi, Instr.draws] at hdraws
  | sprite _ _ hi _ => simp [hi] at hdraws
  | skip c _ => exact ⟨s.skipIf_display c, s.skipIf_redrawPending c⟩
  | _ => exact ⟨rfl, rfl⟩

/-- A register set to another value is the one that was written. -/
theorem State.eq_of_reg_setReg_ne {s : State} {x r : RegIdx} {b : Byte} (h : (s.setReg x b).reg r ≠ s.reg r) : r = x := by
  by_contra hne
  exact h (s.reg_setReg_other b hne)

/-- Loading `V[0..x]` changes no register above `x`. -/
theorem State.le_of_reg_loadRegs_ne {s : State} {m : Memory} {a : Nat} {x r : RegIdx}
    (h : (s.loadRegs (m.readMany a (x.val + 1))).reg r ≠ s.reg r) : r ≤ x := by
  by_contra hlt
  exact h (by rw [State.reg_loadRegs_readMany, if_neg hlt])

/-- Settles O23: a register that changes is the one its effect wrote. -/
theorem onlyFlagWritersTouchVF : Obligations.OnlyFlagWritersTouchVF := by
  intro i s t r h hne
  cases effect_of_exec h with
  | result x b hd => exact .inl (State.eq_of_reg_setReg_ne hne ▸ hd)
  | resultFlag x b f hd hf =>
    by_cases hx : r = x
    · exact .inl (hx ▸ hd)
    · exact .inr ⟨by_contra fun hr => hne (s.reg_setResultFlag_other b _ hx hr), hf⟩
  | random x nn hi =>
    obtain rfl := State.eq_of_reg_setReg_ne (s := s.drawn) hne
    exact .inl (hi ▸ beq_self_eq_true r)
  | load x hi _ => exact .inl (hi ▸ decide_eq_true (State.le_of_reg_loadRegs_ne hne))
  | sprite d f _ hf => exact .inr ⟨State.eq_of_reg_setReg_ne (s := s.redraw d) hne, hf⟩
  | skip c _ => exact absurd (s.reg_skipIf c r) hne
  | _ => exact absurd rfl hne

/-- Settles O41: each guarded field is written by one effect, whose constructor names the instructions that have it. -/
theorem instructionsLeaveTheRestAlone : Obligations.InstructionsLeaveTheRestAlone := by
  intro i s t h
  cases effect_of_exec h with
  | random _ _ hi | jump _ hi _ | skip _ hi | wait hi | index _ hi | delay _ hi | sound _ hi => simp [hi]
  | call _ hi _ | ret _ _ hi _ => simp [hi, Instr.writesPc]
  | _ => simp

/-! ## The invariant -/

/-- Settles O53, clause by clause: each is true of the empty memory, stack and image and of a Running machine. -/
theorem resetMeetsInvariant : Obligations.ResetMeetsInvariant where
  mem := rfl
  sp := Nat.zero_le _
  stack _ h := nomatch h
  pc := by decide
  fault h := absurd rfl h
  image := Nat.zero_le _
  phase _ := rfl

/-- Fault entry halts between frames, so the invariant asks nothing new of it. -/
theorem State.Inv.raise {s : State} (h : s.Inv) (f : FaultCode) : (s.raise f).Inv :=
  { h with fault := fun _ => rfl, phase := fun hp => absurd rfl hp }

theorem State.Inv.setPc {s : State} (h : s.Inv) {a : Word} (ha : a.toNat ≤ 0x10FE) : (s.setPc a).Inv :=
  { h with pc := ha }

theorem State.Inv.useStep {s : State} (h : s.Inv) : s.useStep.Inv := by
  unfold State.useStep
  split
  · next n hp => exact { h with phase := fun _ => h.phase (by simp [hp]) }
  · exact h

/-- What an instruction does keeps the invariant, wherever it was fetched: the advanced `PC` is then between 2 and 0x1000. -/
theorem Effect.inv {i : Instr} {s t : State} (he : Effect i s t) (h : s.Inv) (hlo : 2 ≤ s.pc.toNat)
    (hhi : s.pc.toNat ≤ 0x1000) : t.Inv := by
  cases he with
  | nothing => exact h
  | store bytes _ hb => exact { h with mem := Memory.wf_writeMany h.mem hb }
  | jump a _ ha => exact h.setPc ha
  | skip c _ =>
    cases c with
    | false => exact h
    | true => exact h.setPc (a := s.pc + 2) (by bv_omega)
  | wait _ => exact h.setPc (a := s.pc - 2) (by bv_omega)
  | call nnn _ hsp =>
    exact { h with
      sp := hsp
      stack := List.forall_mem_cons.2 ⟨hhi, h.stack⟩
      pc := (toNat_zextAddr_le nnn).trans (by decide) }
  | ret a rest _ hs =>
    obtain ⟨ha, hrest⟩ := List.forall_mem_cons.1 (hs ▸ h.stack)
    have hsp : rest.length + 1 ≤ stackDepth := by simpa [State.sp, hs] using h.sp
    exact { h with sp := Nat.le_of_succ_le hsp, stack := hrest, pc := Nat.le_trans ha (by decide) }
  | fault f _ => exact h.raise f
  | _ => exact { h with }

/-- The executor keeps the invariant: a fetch fault, or an instruction run after the advance of `PC`. -/
theorem State.Inv.executeNext {s t : State} (h : s.Inv) (ht : s.executeNext = .next t) : t.Inv := by
  obtain ⟨-, hr⟩ | ⟨hpc, hr⟩ := State.executeNext_cases ht
  · cases hr; exact h.raise .fetchBounds
  · have hadv : s.advance.pc.toNat = s.pc.toNat + 2 := by rw [State.advance_pc]; bv_omega
    exact (effect_of_exec hr.symm).inv (h.setPc (a := s.pc + 2) (by rw [← State.advance_pc]; omega)) (by omega) (by omega)

theorem State.Inv.frameEnd {s : State} (h : s.Inv) : s.frameEnd.Inv := by
  have hp : s.tickTimers.presentPending.Inv := by
    unfold State.presentPending
    split <;> exact { h with }
  exact { hp with phase := fun hb => absurd rfl hb }

/-- A load of an image that fits meets the invariant, whatever the state before. -/
theorem State.inv_loaded {s : State} {image : List Byte} (h : image.length ≤ s.params.capacity) :
    (s.loaded image).Inv where
  mem := Memory.wf_afterLoad h
  sp := Nat.zero_le _
  stack _ ha := nomatch ha
  pc := by
    have hpc : (s.loaded image).pc.toNat = s.params.entry.toNat := (State.justLoaded_loaded h).pc
    have := s.params.entry_lt
    omega
  fault hf := absurd rfl hf
  image := h
  phase _ := rfl

/-- A command keeps the invariant of a machine that is not Halted and between frames, so has no fault recorded. -/
theorem State.Inv.command {s : State} (h : s.Inv) (hr : s.runState ≠ .halted) (hp : s.phase = .between) {cmd : Command} :
    (s.command cmd).Inv := by
  have hnf : s.fault = .none := by_contra fun hf => hr (h.fault hf)
  cases cmd with
  | none => exact h
  | pause | resume | quit => exact { h with fault := fun hf => absurd hnf hf, phase := fun hb => absurd hp hb }
  | reset => exact State.inv_loaded h.image

theorem State.Inv.frameTop {s : State} (h : s.Inv) (hb : s.runState = .running → s.phase = .between) (n : Nat)
    (cmd : Command) (keys : Keys) : (s.frameTop n cmd keys).Inv := by
  have hp : s.phase = .between := by_contra fun hp => hp (hb (h.phase hp))
  obtain ⟨-, ht⟩ | ⟨hr, -, ht⟩ | ⟨hr, -, -, ht⟩ | ⟨hr, -, hrun, ht⟩ := s.frameTop_cases n cmd keys <;> rw [ht]
  · exact h
  · exact { h with fault := fun _ => rfl, phase := fun hb => absurd rfl hb }
  · exact { h.command hr hp with phase := fun hb => absurd rfl hb }
  · exact { h.command hr hp with phase := fun _ => hrun }

/-- Settles O54: each of the four agents a step can belong to keeps the invariant. -/
theorem stepKeepsInvariant : Obligations.StepKeepsInvariant := by
  intro s t h hs
  obtain ⟨-, he⟩ | ⟨-, -, rfl⟩ | ⟨cmd, keys, rest, hb, -, rfl⟩ | ⟨image, rest, -, -, hc, rfl⟩ := step_cases hs
  · exact h.useStep.executeNext he
  · exact h.frameEnd
  · exact State.Inv.frameTop (s := { s with inputs := rest }) { h with } hb _ cmd keys
  · exact State.inv_loaded hc

/-! ## The data of the state -/

/-- Register files that agree at every index are equal data. -/
theorem State.v_ext {s t : State} (h : ∀ r, t.reg r = s.reg r) : t.v = s.v :=
  Vector.ext fun k hk => h ⟨k, hk⟩

/-- Settles O55: each of the three forms is canonical. -/
theorem equalReadsAreEqualData : Obligations.EqualReadsAreEqualData := by
  intro s t hs ht hmem hregs hpixels
  exact ⟨Memory.ext_of_wfFrom ht.mem hs.mem hmem, State.v_ext fun r => hregs r List.not_mem_nil,
    Display.ext_pixel hpixels⟩

/-- Load of the empty image with the standard parameters lists nothing: every byte is the one an unlisted address reads. -/
theorem Memory.afterLoad_standard_nil : Memory.afterLoad .standard [] = [] := by
  refine Memory.ext_of_wfFrom (Memory.wf_afterLoad (Nat.zero_le _)) (rfl : Memory.wfFrom 0 [] = true) fun a => ?_
  rw [Memory.read_afterLoad (Nat.zero_le _), if_neg (by simp), Memory.read]
  split
  · rfl
  · exact (unlistedByte_above (by omega)).symm

theorem State.load_nil (s : State) : s.load [] = .ok (s.loaded []) := if_pos (Nat.zero_le s.params.capacity)

/-- The first load of the empty image with the standard parameters makes the state after reset. -/
theorem State.boot_standard_nil : State.boot .standard [] = .ok State.reset := by
  rw [State.boot, State.load_nil, State.loaded, Memory.afterLoad_standard_nil]
  rfl

/-- Settles O52: the record is read off, memory by the lemma about unlisted bytes. -/
theorem resetHasLoadedValues : Obligations.ResetHasLoadedValues := by
  refine ⟨State.boot_standard_nil, rfl, fun r => ?_, rfl, rfl, rfl, rfl, rfl, rfl, rfl, rfl, rfl, rfl,
    fun px py => Display.pixel_blank _, fun a => ?_⟩
  · exact Vector.getElem_replicate r.isLt
  · rw [Memory.read_reset]
    split
    · rfl
    · exact unlistedByte_above (by omega)

end Sys2Proof.Machine

/-! PROOFS. The statements about memory (spec/20_memory.md): which instructions write it, and that the next fetch sees what
they wrote. -/

namespace Sys2Proof.Machine

/-! ## Who writes memory (R30) -/

/-- Settles O39: one effect writes memory, and only the two stores have it. -/
theorem onlyStoresWriteMemory : Obligations.OnlyStoresWriteMemory := by
  intro i s t h hstores
  cases effect_of_exec h with
  | store _ hi _ => simp [hi] at hstores
  | skip c _ => exact s.skipIf_mem c
  | _ => rfl

/-! ## Stored bytes are fetched (R32, R40) -/

/-- A byte of a run just written reads back. -/
theorem Memory.read_writeMany_inside {m : Memory} {a j : Nat} {vs : List Byte} (hm : m.wf = true)
    (h : a + vs.length ≤ 4096) (hj : j < vs.length) (d : Byte) : (m.writeMany a vs).read (a + j) = vs.getD j d := by
  rw [Memory.read_writeMany hm (.inr h), if_pos (Nat.le_add_right a j), Nat.add_sub_cancel_left,
    List.getD_eq_getElem _ _ hj, List.getD_eq_getElem _ _ hj]

/-- A store at `I` that fits completes, and a fetch from inside it reads two neighbouring bytes of it, big-endian. -/
theorem fetch_after_storeAtI {s : State} {vs : List Byte} (hm : s.mem.wf = true) (h : s.base + vs.length ≤ 4096) :
    ∃ t, storeAtI vs s = .next t ∧ ∀ j, j + 1 < vs.length →
      t.fetch (s.base + j) = some (wordOfBytes (vs.getD j 0) (vs.getD (j + 1) 0)) := by
  refine ⟨{ s with mem := s.mem.writeMany s.base vs }, ?_, fun j hj => State.fetch_eq_some.2 ⟨by omega, ?_⟩⟩
  · rw [storeAtI, State.memWrite_eq_some.2 ⟨.inr h, rfl⟩]
  · rw [Memory.read_writeMany_inside hm h (by omega) 0, Nat.add_assoc, Memory.read_writeMany_inside hm h hj 0, wordOfBytes]

/-- Settles O9: both instructions are a store at `I`, of the registers up to `x` and of the three digits. -/
theorem storeIsSeenByNextFetch : Obligations.StoreIsSeenByNextFetch := by
  refine fun s x hm => ⟨fun hb => ?_, fun hb => ?_⟩
  · have hlen := s.length_regsUpTo x
    obtain ⟨t, ht, hfetch⟩ := fetch_after_storeAtI (vs := s.regsUpTo x) hm (by rw [hlen, State.base]; omega)
    refine ⟨t, ht, fun k k' hk hx => ?_⟩
    have hx' : k'.val ≤ x.val := hx
    have hkx : k ≤ x := Fin.le_def.2 (by omega)
    have hw := hfetch k.val (by omega)
    rwa [← hk, s.getD_regsUpTo hkx, s.getD_regsUpTo hx] at hw
  · have hlen : (bcdDigits (s.reg x)).length = 3 := rfl
    obtain ⟨t, ht, hfetch⟩ := fetch_after_storeAtI (vs := bcdDigits (s.reg x)) hm (by rw [hlen, State.base]; omega)
    exact ⟨t, ht, hfetch 0 (by omega), hfetch 1 (by omega)⟩

end Sys2Proof.Machine

/-! PROOFS. The statements about the encoding (spec/30_encoding.md): `decode` and `encode` undo each other, the decoder agrees
with the opcode map (R49) and with the table of unknown words (R50), and every decoded instruction goes on. Where a proof
splits on the branches of `decode`, case `h_k` is class `k - 1`. -/

namespace Sys2Proof

/-! ## Which words are unknown (R50, R51) -/

theorem fieldOp_lt (w : Word) : fieldOp w < 16 := (w.extractLsb' 12 4).isLt

/-- The table of unknown words, over the fields the decoder reads. -/
theorem isUnknownWord_eq (w : Word) : isUnknownWord w =
    if fieldOp w = 0x0 then !([0x0E0, 0x0EE].contains (fieldNNN w).toNat)
    else if fieldOp w = 0x5 then (fieldN w).toNat != 0
    else if fieldOp w = 0x8 then [0x8, 0x9, 0xA, 0xB, 0xC, 0xD, 0xF].contains (fieldN w).toNat
    else if fieldOp w = 0x9 then (fieldN w).toNat != 0
    else if fieldOp w = 0xE then !([0x9E, 0xA1].contains (fieldNN w).toNat)
    else if fieldOp w = 0xF then
      !([0x07, 0x0A, 0x15, 0x18, 0x1E, 0x29, 0x33, 0x55, 0x65].contains (fieldNN w).toNat)
    else false := rfl

theorem decodeSys_eq_unknown_iff (w : Word) :
    decodeSys w = .unknown w ↔ (fieldNNN w).toNat ∉ [0x0E0, 0x0EE] := by
  unfold decodeSys
  split <;> simp_all

theorem decodeAlu_eq_unknown_iff (w : Word) :
    decodeAlu w = .unknown w ↔ (fieldN w).toNat ∈ [0x8, 0x9, 0xA, 0xB, 0xC, 0xD, 0xF] := by
  have hlt := (fieldN w).isLt
  unfold decodeAlu
  split
  case h_10 => simp only [List.mem_cons, true_iff]; grind
  all_goals simp [*]

theorem decodeKey_eq_unknown_iff (w : Word) :
    decodeKey w = .unknown w ↔ (fieldNN w).toNat ∉ [0x9E, 0xA1] := by
  unfold decodeKey
  split <;> simp_all

theorem decodeMisc_eq_unknown_iff (w : Word) : decodeMisc w = .unknown w ↔
    (fieldNN w).toNat ∉ [0x07, 0x0A, 0x15, 0x18, 0x1E, 0x29, 0x33, 0x55, 0x65] := by
  unfold decodeMisc
  split <;> simp_all

/-- The decoder answers `unknown` exactly on the words of R50's table. -/
theorem decode_eq_unknown_iff (w : Word) : decode w = .unknown w ↔ isUnknownWord w = true := by
  rw [isUnknownWord_eq]
  unfold decode
  split
  case h_1 h => simp [h, decodeSys_eq_unknown_iff]
  case h_6 h | h_10 h => simp [h, ← BitVec.toNat_inj]
  case h_9 h => simp [h, decodeAlu_eq_unknown_iff]
  case h_15 h => simp [h, decodeKey_eq_unknown_iff]
  case h_16 =>
    have h : fieldOp w = 0xF := by grind [fieldOp_lt]
    simp [h, decodeMisc_eq_unknown_iff]
  all_goals simp [*]

/-! ## Encoding what was decoded (R46, R47) -/

section selectors

variable {w : Word} {op sub : Nibble} {nn : Byte} {nnn : Addr12}

/-- A word is rebuilt from its operand fields and the selector that was read. -/
theorem encRegReg_of_fields (hop : fieldOp w = op.toNat) (hsub : (fieldN w).toNat = sub.toNat) :
    encRegReg op (fieldX w) (fieldY w) sub = w := by
  rw [← BitVec.eq_of_toNat_eq hsub, encRegReg_fields w hop]

theorem encRegImm_of_fields (hop : fieldOp w = op.toNat) (hnn : (fieldNN w).toNat = nn.toNat) :
    encRegImm op (fieldX w) nn = w := by
  rw [← BitVec.eq_of_toNat_eq hnn, encRegImm_fields w hop]

theorem encAddr_of_fields (hop : fieldOp w = op.toNat) (hnnn : (fieldNNN w).toNat = nnn.toNat) : encAddr op nnn = w := by
  rw [← BitVec.eq_of_toNat_eq hnnn, encAddr_fields w hop]

end selectors

theorem encode_decodeSys {w : Word} (hop : fieldOp w = 0x0) : encode (decodeSys w) = w := by
  unfold decodeSys
  split
  case h_1 h => exact encAddr_of_fields (op := 0x0) (nnn := 0x0E0) hop h
  case h_2 h => exact encAddr_of_fields (op := 0x0) (nnn := 0x0EE) hop h
  case h_3 => rfl

theorem encode_decodeAlu {w : Word} (hop : fieldOp w = 0x8) : encode (decodeAlu w) = w := by
  unfold decodeAlu
  split
  case h_10 => rfl
  all_goals exact encRegReg_of_fields hop ‹_›

theorem encode_decodeKey {w : Word} (hop : fieldOp w = 0xE) : encode (decodeKey w) = w := by
  unfold decodeKey
  split
  case h_3 => rfl
  all_goals exact encRegImm_of_fields hop ‹_›

theorem encode_decodeMisc {w : Word} (hop : fieldOp w = 0xF) : encode (decodeMisc w) = w := by
  unfold decodeMisc
  split
  case h_10 => rfl
  all_goals exact encRegImm_of_fields hop ‹_›

/-- Decoding drops no bit of the word. -/
theorem encode_decode (w : Word) : encode (decode w) = w := by
  unfold decode
  split
  case h_1 h => exact encode_decodeSys h
  case h_2 h | h_3 h | h_11 h | h_12 h => exact encAddr_fields w h
  case h_4 h | h_5 h | h_7 h | h_8 h | h_13 h => exact encRegImm_fields w h
  case h_6 h | h_10 h =>
    split_ifs with hn
    · exact encRegReg_of_fields h (congrArg BitVec.toNat hn)
    · rfl
  case h_9 h => exact encode_decodeAlu h
  case h_14 h => exact encRegReg_fields w h
  case h_15 h => exact encode_decodeKey h
  case h_16 => exact encode_decodeMisc (by grind [fieldOp_lt])

theorem eq_of_decode_eq_unknown {w v : Word} (h : decode w = .unknown v) : v = w :=
  (congrArg encode h).symm.trans (encode_decode w)

/-- An unknown word the decoder answers is the word it read, so it stands in R50's table. -/
theorem wf_decode (w : Word) : (decode w).wf = true := by
  cases h : decode w with
  | unknown v =>
    obtain rfl := eq_of_decode_eq_unknown h
    exact (decode_eq_unknown_iff v).1 h
  | _ => rfl

/-- Settles O2, its two halves by the branches of `decode`. -/
theorem encodeOfDecodeIsIdentity : Obligations.EncodeOfDecodeIsIdentity :=
  fun w => ⟨wf_decode w, encode_decode w⟩

/-! ## Decoding what was encoded (R46, R47, R49) -/

/-- Settles O1: class, selector and operands are read back from each format's fields, and an unknown word of R50's table is
answered `unknown`. -/
theorem decodeOfEncodeIsIdentity : Obligations.DecodeOfEncodeIsIdentity := by
  intro i hi
  cases i with
  | unknown w => exact (decode_eq_unknown_iff w).2 hi
  | cls | ret => rfl
  | jp _ | call _ | ldI _ | jpV0 _ => simp [encode, decode]
  | seImm _ _ | sneImm _ _ | ldImm _ _ | addImm _ _ | rnd _ _ => simp [encode, decode]
  | seReg _ _ | sneReg _ _ | drw _ _ _ => simp [encode, decode]
  | ldReg _ _ | orReg _ _ | andReg _ _ | xorReg _ _ | addReg _ _ | subReg _ _ | shrReg _ _ | subnReg _ _ | shlReg _ _ =>
    simp [encode, decode, decodeAlu]
  | skp _ | sknp _ => simp [encode, decode, decodeKey]
  | ldVxDt _ | ldVxK _ | ldDtVx _ | ldStVx _ | addI _ | ldF _ | ldB _ | storeRegs _ | loadRegs _ =>
    simp [encode, decode, decodeMisc]

/-- Settles O5 by evaluating the decoder on each word. -/
theorem workedExampleWordsDecode : Obligations.WorkedExampleWordsDecode :=
  ⟨rfl, rfl, rfl, rfl, rfl, rfl, rfl, rfl, rfl, rfl, rfl⟩

/-! ## The opcode map (R49): a row is selected by the words that have its key -/

/-- The bits that select an instruction within class `op`: the mask of every row of that class. -/
def dispatchMask : Nat → Word
  | 0x0 => 0xFFFF
  | 0x5 | 0x8 | 0x9 => 0xF00F
  | 0xE | 0xF => 0xF0FF
  | _ => 0xF000

/-- A word with its operand fields cleared. -/
def dispatchKey (w : Word) : Word := w &&& dispatchMask (fieldOp w)

/-- A field the mask covers is read unchanged from the masked word. -/
theorem extractLsb'_and_of_covered {m : Word} {start len : Nat} (w : Word)
    (h : m.extractLsb' start len = BitVec.allOnes len) : (w &&& m).extractLsb' start len = w.extractLsb' start len := by
  rw [BitVec.extractLsb'_and, h, BitVec.and_allOnes]

theorem fieldOp_and_dispatchMask (w : Word) (op : Nat) : fieldOp (w &&& dispatchMask op) = fieldOp w := by
  refine congrArg BitVec.toNat (extractLsb'_and_of_covered w ?_)
  unfold dispatchMask
  split <;> rfl

theorem mask_eq_dispatchMask : ∀ r ∈ opcodeRows, r.mask = dispatchMask (fieldOp r.value) := by decide

/-- A word selects a row exactly when its key is the row's value. -/
theorem OpcodeRow.selects_iff {r : OpcodeRow} (hr : r ∈ opcodeRows) {w : Word} :
    r.selects w = true ↔ dispatchKey w = r.value := by
  rw [OpcodeRow.selects, beq_iff_eq, mask_eq_dispatchMask r hr, dispatchKey]
  have hop {op : Nat} (h : w &&& dispatchMask op = r.value) : fieldOp r.value = fieldOp w := by
    rw [← h, fieldOp_and_dispatchMask]
  exact ⟨fun h => by rwa [hop h] at h, fun h => by rwa [hop h]⟩

/-! ## The decoder follows the map -/

section

variable {w : Word}

theorem dispatchKey_of_class0 (h : fieldOp w = 0x0) : dispatchKey w = w := by
  rw [dispatchKey, h]
  exact BitVec.and_allOnes

theorem fieldN_dispatchKey (h : dispatchMask (fieldOp w) = 0xF00F) : fieldN (dispatchKey w) = fieldN w := by
  rw [dispatchKey, h]
  exact extractLsb'_and_of_covered w rfl

theorem fieldNN_dispatchKey (h : dispatchMask (fieldOp w) = 0xF0FF) : fieldNN (dispatchKey w) = fieldNN w := by
  rw [dispatchKey, h]
  exact extractLsb'_and_of_covered w rfl

end

/-- Which instruction a word is does not depend on its operand fields. -/
theorem mnemonic_decode_dispatchKey (w : Word) : (decode (dispatchKey w)).mnemonic = (decode w).mnemonic := by
  have hop : fieldOp (dispatchKey w) = fieldOp w := fieldOp_and_dispatchMask w _
  unfold decode
  rw [hop]
  split
  case h_1 h => rw [dispatchKey_of_class0 h]
  case h_6 h | h_10 h =>
    rw [fieldN_dispatchKey (by rw [h]; rfl)]
    split_ifs <;> rfl
  case h_9 h =>
    rw [decodeAlu, decodeAlu, fieldN_dispatchKey (by rw [h]; rfl)]
    split <;> rfl
  case h_15 h =>
    rw [decodeKey, decodeKey, fieldNN_dispatchKey (by rw [h]; rfl)]
    split <;> rfl
  case h_16 =>
    have h : fieldOp w = 0xF := by grind [fieldOp_lt]
    rw [decodeMisc, decodeMisc, fieldNN_dispatchKey (by rw [h]; rfl)]
    split <;> rfl
  all_goals rfl

theorem mnemonic_decode_value : ∀ r ∈ opcodeRows, (decode r.value).mnemonic = r.mnemonic :=
  List.map_inj_left.1 rfl

theorem mnemonic_decode_of_selects {r : OpcodeRow} {w : Word} (hr : r ∈ opcodeRows) (h : r.selects w = true) :
    (decode w).mnemonic = r.mnemonic := by
  rw [← mnemonic_decode_dispatchKey, (OpcodeRow.selects_iff hr).1 h, mnemonic_decode_value r hr]

theorem nodup_values : (opcodeRows.map (·.value)).Nodup := by decide

/-- Settles O3: two rows that a word selects have its key as their value, and no two rows have the same value. -/
theorem decodeFollowsOpcodeMap : Obligations.DecodeFollowsOpcodeMap := by
  refine ⟨rfl, fun w r₁ hr₁ r₂ hr₂ h₁ h₂ => ?_, fun w r hr h => mnemonic_decode_of_selects hr h⟩
  have hv : r₁.value = r₂.value :=
    ((OpcodeRow.selects_iff hr₁).1 h₁).symm.trans ((OpcodeRow.selects_iff hr₂).1 h₂)
  exact List.inj_on_of_nodup_map nodup_values hr₁ hr₂ hv

/-! ## The map covers every word that is not unknown -/

section keys

variable (op sub : Nibble) (x y : RegIdx) (nn : Byte) (nnn : Addr12)

theorem opNib_and_F0 : (op ++ nib x) &&& (0xF#4 ++ nib 0) = op ++ nib 0 :=
  BitVec.and_append.trans (congrArg₂ _ BitVec.and_allOnes BitVec.and_zero)

theorem dispatchKey_encAddr (h : dispatchMask op.toNat = encAddr 0xF 0) : dispatchKey (encAddr op nnn) = encAddr op 0 := by
  rw [dispatchKey, fieldOp_encAddr, h]
  exact BitVec.and_append.trans (congrArg₂ _ BitVec.and_allOnes BitVec.and_zero)

theorem dispatchKey_encRegImm {m : Byte} (h : dispatchMask op.toNat = encRegImm 0xF 0 m) :
    dispatchKey (encRegImm op x nn) = encRegImm op 0 (nn &&& m) := by
  rw [dispatchKey, fieldOp_encRegImm, h]
  exact BitVec.and_append.trans (congrArg (· ++ (nn &&& m)) (opNib_and_F0 op x))

theorem dispatchKey_encRegReg {m : Nibble} (h : dispatchMask op.toNat = encRegReg 0xF 0 0 m) :
    dispatchKey (encRegReg op x y sub) = encRegReg op 0 0 (sub &&& m) := by
  have hXY : (op ++ nib x ++ nib y) &&& (0xF#4 ++ nib 0 ++ nib 0) = op ++ nib 0 ++ nib 0 :=
    BitVec.and_append.trans (congrArg₂ _ (opNib_and_F0 op x) BitVec.and_zero)
  rw [dispatchKey, fieldOp_encRegReg, h]
  exact BitVec.and_append.trans (congrArg (· ++ (sub &&& m)) hXY)

end keys

/-- Clearing the operands of a known instruction's word leaves the value of a row, format by format. -/
theorem dispatchKey_encode_mem {i : Instr} (hi : ∀ w, i ≠ .unknown w) :
    dispatchKey (encode i) ∈ opcodeRows.map (·.value) := by
  cases i with
  | unknown w => exact absurd rfl (hi w)
  | cls | ret => decide
  | jp nnn | call nnn | ldI nnn | jpV0 nnn => rw [encode, dispatchKey_encAddr _ _ rfl]; decide
  | seImm x nn | sneImm x nn | ldImm x nn | addImm x nn | rnd x nn =>
    rw [encode, dispatchKey_encRegImm _ _ _ (m := 0#8) rfl, BitVec.and_zero]; decide
  | drw x y n => rw [encode, dispatchKey_encRegReg _ _ _ _ (m := 0#4) rfl, BitVec.and_zero]; decide
  | seReg x y | sneReg x y | ldReg x y | orReg x y | andReg x y | xorReg x y | addReg x y | subReg x y | shrReg x y
  | subnReg x y | shlReg x y => rw [encode, dispatchKey_encRegReg _ _ _ _ (m := 0xF) rfl]; decide
  | skp x | sknp x | ldVxDt x | ldVxK x | ldDtVx x | ldStVx x | addI x | ldF x | ldB x | storeRegs x | loadRegs x =>
    rw [encode, dispatchKey_encRegImm _ _ _ (m := 0xFF) rfl]; decide

theorem mnemonic_ne_unknown : ∀ r ∈ opcodeRows, r.mnemonic ≠ "NOP.unknown" := by decide

theorem selects_eq_false_of_unknown {w : Word} (hw : isUnknownWord w = true) :
    ∀ r ∈ opcodeRows, r.selects w = false := by
  refine fun r hr => Bool.eq_false_iff.2 fun hsel => mnemonic_ne_unknown r hr ?_
  rw [← mnemonic_decode_of_selects hr hsel, (decode_eq_unknown_iff w).2 hw, Instr.mnemonic]

theorem exists_selects_of_known {w : Word} (hw : isUnknownWord w ≠ true) : ∃ r ∈ opcodeRows, r.selects w = true := by
  have hknown (v : Word) (h : decode w = .unknown v) : False := by
    obtain rfl := eq_of_decode_eq_unknown h
    exact hw ((decode_eq_unknown_iff v).1 h)
  have hmem := dispatchKey_encode_mem hknown
  rw [encode_decode, List.mem_map] at hmem
  obtain ⟨r, hr, hv⟩ := hmem
  exact ⟨r, hr, (OpcodeRow.selects_iff hr).2 hv.symm⟩

/-- Settles O4: an unknown word would give a row the mnemonic `NOP.unknown`, and a known one is the word of an instruction,
whose key is the value of a row. -/
theorem unknownWordsSelectNoRow : Obligations.UnknownWordsSelectNoRow := by
  refine fun w => ⟨decode_eq_unknown_iff w, selects_eq_false_of_unknown, fun hnone => by_contra fun hw => ?_⟩
  obtain ⟨r, hr, hsel⟩ := exists_selects_of_known hw
  exact Bool.false_ne_true ((hnone r hr).symm.trans hsel)

end Sys2Proof

namespace Sys2Proof.Machine

/-! ## No instruction stops the model (R51, spec/60_exceptions.md R111) -/

theorem storeAtI_goesOn (bytes : List Byte) (s : State) : ∃ t, storeAtI bytes s = .next t := by
  unfold storeAtI
  split <;> exact ⟨_, rfl⟩

/-- Both branches of every meaning that branches are next states. -/
theorem exec_goesOn (i : Instr) (s : State) : ∃ t, exec i s = .next t := by
  cases i with
  | ret => simp only [exec, execRet]; split <;> exact ⟨_, rfl⟩
  | call nnn => simp only [exec, execCall]; split <;> exact ⟨_, rfl⟩
  | ldVxK x => simp only [exec, execLdVxK]; split <;> exact ⟨_, rfl⟩
  | loadRegs x => simp only [exec, execLoadRegs]; split <;> exact ⟨_, rfl⟩
  | drw x y n =>
    by_cases hb : s.spriteInBounds y n
    · exact ⟨_, execDrw_of_inBounds hb⟩
    · exact ⟨_, execDrw_of_outOfBounds hb⟩
  | ldB x => exact storeAtI_goesOn _ s
  | storeRegs x => exact storeAtI_goesOn _ s
  | _ => exact ⟨_, rfl⟩

theorem State.executeNext_goesOn (s : State) : ∃ t, s.executeNext = .next t := by
  obtain ⟨-, h⟩ | ⟨-, h⟩ := State.executeNext_cases (s := s) rfl
  · exact ⟨_, h⟩
  · exact h ▸ exec_goesOn _ _

/-- Settles O36: a step that runs an instruction faults on its fetch, which is a next state, or answers what `exec` does. -/
theorem everyInstructionGoesOn : Obligations.EveryInstructionGoesOn :=
  ⟨exec_goesOn, fun s h => step_of_runsInstruction h ▸ s.useStep.executeNext_goesOn⟩

end Sys2Proof.Machine

/-! PROOFS. The statements about the step and control flow (spec/40_step_and_control_flow.md): which instruction a step runs,
where a step stops, and what the instructions that write `PC` do. -/

namespace Sys2Proof.Machine

/-! ## Fault entry (R111) -/

theorem faulted_raise (f : FaultCode) (s : State) : Faulted f s (s.raise f) :=
  ⟨rfl, rfl, fun _ _ => rfl, fun _ => rfl, rfl⟩

/-- Fault entry ends the frame, so it forgets the step of the batch that was used up. -/
theorem State.raise_useStep (f : FaultCode) (s : State) : s.useStep.raise f = s.raise f := by
  unfold State.useStep
  split <;> rfl

/-! ## The instruction a step runs (R60) -/

/-- A step that fetches `w` is `exec` of what `w` decodes to, after the advance of `PC`. -/
theorem step_of_fetch {s : State} {w : Word} (h : s.runsInstruction) (hw : s.fetch s.pc.toNat = some w) :
    step s = exec (decode w) { s.useStep with pc := s.pc + 2 } := by
  have hfetch : s.useStep.fetch s.useStep.pc.toNat = some w := by
    rw [← hw, State.fetch, State.fetch, State.useStep_pc, State.useStep_mem]
  rw [step_of_runsInstruction h, State.executeNext_of_fetch hfetch, State.advance, State.useStep_pc]

/-- Settles O6: the two bytes at `PC` are the word the step fetches. -/
theorem stepRunsDecodedInstruction : Obligations.StepRunsDecodedInstruction := by
  intro s i h hpc hi
  cases hi
  exact step_of_fetch h (State.fetch_eq_some.2 ⟨by omega, rfl⟩)

/-- Settles O7: the executor raises the fault before `PC` advances. -/
theorem fetchAboveMemoryFaults : Obligations.FetchAboveMemoryFaults := by
  intro s h hpc
  refine ⟨s.raise .fetchBounds, ?_, faulted_raise _ s, rfl⟩
  rw [step_of_runsInstruction h, State.executeNext_of_bounds (by rw [State.useStep_pc]; omega), State.raise_useStep]

theorem tableWord_toNat (w : Word) : tableWord 16 w.toNat = w := by
  rw [tableWord, Nat.min_self, Nat.mod_eq_of_lt w.isLt, BitVec.ofNat_toNat, BitVec.setWidth_eq]

/-- Settles O8: the placed word is what the next step fetches, and outside a frame that step uses up nothing. -/
theorem placedWordRuns : Obligations.PlacedWordRuns := by
  intro s w hm hpc
  rw [State.withFetchWord, tableWord_toNat]
  exact step_of_fetch (s.placeWord_runsInstruction w) (State.fetch_placeWord w hm (by omega))

/-- Settles O10: R50's unknown words decode to `unknown`, whose meaning is to do nothing. -/
theorem unknownWordOnlyAdvances : Obligations.UnknownWordOnlyAdvances := by
  refine ⟨fun _ _ => rfl, fun s w h hw hu => ?_⟩
  rw [step_of_fetch h hw, (decode_eq_unknown_iff w).2 hu]
  rfl

/-! ## Where a step stops (R60, spec/60_exceptions.md R113, R126) -/

/-- When a step stops without a next state, by the reason it gives. -/
def State.stopsWith (s : State) : Fault → Prop
  | .halted => s.runState = .halted ∧ s.inputs = []
  | .awaitingFrame => s.runState = .paused ∧ s.inputs = []
  | .imageTooLarge => (s.runState = .running → s.phase = .between) ∧
      ∃ image rest, s.inputs = .load image :: rest ∧ s.params.capacity < image.length

theorem step_of_stopsWith {s : State} {f : Fault} (h : s.stopsWith f) : step s = .fault f := by
  cases f with
  | halted | awaitingFrame =>
    obtain ⟨hr, hi⟩ := h
    simp [step, State.turn, State.turnBetween, hr, hi]
  | imageTooLarge =>
    obtain ⟨hb, image, rest, hi, hc⟩ := h
    rw [step_of_input hb hi, State.accept, State.load, if_neg (Nat.not_le.2 hc)]

/-- A step goes on, unless its turn is stuck or takes a load that does not fit. -/
theorem step_goesOn_or_stops (s : State) : (∃ t, step s = .next t) ∨ ∃ f, s.stopsWith f := by
  obtain ⟨h, -⟩ | ⟨hr, hp, -⟩ | ⟨hb, e, rest, hi, -⟩ | ⟨hr, hi, -⟩ | ⟨hr, hi, -⟩ := s.turn_cases
  · exact .inl (step_of_runsInstruction h ▸ s.useStep.executeNext_goesOn)
  · exact .inl ⟨_, step_of_batch_zero hr hp⟩
  · cases e with
    | frame cmd keys => exact .inl ⟨_, step_of_input hb hi⟩
    | load image =>
      obtain ⟨-, hl⟩ | ⟨hc, -⟩ := State.load_cases { s with inputs := rest } image
      · exact .inl ⟨_, by rw [step_of_input hb hi, State.accept, hl]⟩
      · exact .inr ⟨.imageTooLarge, hb, image, rest, hi, hc⟩
  · exact .inr ⟨.awaitingFrame, hr, hi⟩
  · exact .inr ⟨.halted, hr, hi⟩

theorem step_eq_fault_iff (s : State) (f : Fault) : step s = .fault f ↔ s.stopsWith f := by
  refine ⟨fun h => ?_, step_of_stopsWith⟩
  obtain ⟨t, ht⟩ | ⟨g, hg⟩ := step_goesOn_or_stops s
  · cases ht.symm.trans h
  · cases (step_of_stopsWith hg).symm.trans h
    exact hg

theorem step_ne_refused (s : State) (r : Refusal) : step s ≠ .refused r := by
  obtain ⟨t, ht⟩ | ⟨f, hf⟩ := step_goesOn_or_stops s
  · simp [ht]
  · simp [step_of_stopsWith hf]

/-- Settles O47: a state that meets no condition of `State.stopsWith` goes on, so each stop has exactly its condition. -/
theorem stepStopsExactlyHere : Obligations.StepStopsExactlyHere :=
  ⟨fun s => step_eq_fault_iff s .halted, fun s => step_eq_fault_iff s .awaitingFrame,
    fun s => step_eq_fault_iff s .imageTooLarge, step_ne_refused⟩

/-! ## Skips and jumps (R63, R65 to R69) -/

theorem onlyPc_setPc (s : State) (a : Word) : OnlyPc s (s.setPc a) :=
  ⟨fun _ _ => rfl, fun _ => rfl, rfl⟩

theorem onlyPc_skipIf (s : State) (c : Bool) : OnlyPc s (s.skipIf c) := by
  cases c with
  | false => exact onlyPc_setPc s s.pc
  | true => exact onlyPc_setPc s (s.pc + 2)

/-- An instruction whose meaning is a skip completes and writes `PC` alone. -/
theorem skip_completes {i : Instr} {s : State} {c : Bool} {a : Word} (h : exec i s = .next (s.skipIf c))
    (ha : (if c then s.pc + 2 else s.pc) = a) : ∃ t, exec i s = .next t ∧ t.pc = a ∧ OnlyPc s t :=
  ⟨s.skipIf c, h, (s.skipIf_pc c).trans ha, onlyPc_skipIf s c⟩

/-- Settles O11: each of the four is a skip on the comparison its statement names. -/
theorem compareAndSkip : Obligations.CompareAndSkip :=
  fun _ _ _ _ => ⟨skip_completes rfl (by simp only [beq_iff_eq]), skip_completes rfl (by simp only [bne_iff_ne, ite_not]),
    skip_completes rfl (by simp only [beq_iff_eq]), skip_completes rfl (by simp only [bne_iff_ne, ite_not])⟩

/-- A byte and a 12-bit address add up without reaching 65536, so nothing of the sum is lost. -/
theorem toNat_zextByte_add_zextAddr (b : Byte) (nnn : Addr12) :
    (zextByte b + zextAddr nnn).toNat = b.toNat + nnn.toNat := by
  have hb := b.isLt
  have hn := nnn.isLt
  rw [BitVec.toNat_add, toNat_zextByte, toNat_zextAddr]
  omega

/-- Settles O13: both set `PC`, to an address and to a sum that fit its 16 bits. -/
theorem jumpSetsPc : Obligations.JumpSetsPc := fun s nnn =>
  ⟨⟨_, rfl, toNat_zextAddr nnn, onlyPc_setPc s _⟩,
    ⟨_, rfl, toNat_zextByte_add_zextAddr (s.reg 0) nnn, onlyPc_setPc s _⟩⟩

/-! ## The call stack (R62, R64, spec/10_state.md R15) -/

section oneEntryMore

variable {s t : State} {a : Word} (h : t.stack = a :: s.stack)

include h

theorem State.sp_of_stack_cons : t.sp = s.sp + 1 := by
  rw [State.sp, h, List.length_cons, State.sp]

/-- The newest entry has the highest index. -/
theorem State.stackEntry_newest : t.stackEntry s.sp = some a := by
  rw [State.stackEntry, h, List.reverse_cons, State.sp, ← List.length_reverse, List.getElem?_concat_length]

theorem State.stackEntry_older {k : Nat} (hk : k < s.sp) : t.stackEntry k = s.stackEntry k := by
  rw [State.stackEntry, h, List.reverse_cons, State.stackEntry, List.getElem?_append_left]
  rwa [List.length_reverse]

end oneEntryMore

theorem exec_call_of_lt {s : State} (nnn : Addr12) (h : s.sp < 12) :
    exec (.call nnn) s = .next ((s.push s.pc).setPc (zextAddr nnn)) := if_pos h

theorem exec_call_of_ge {s : State} (nnn : Addr12) (h : 12 ≤ s.sp) :
    exec (.call nnn) s = .next (s.raise .stackOverflow) := if_neg (Nat.not_lt.2 h)

theorem exec_ret_of_nil {s : State} (h : s.stack = []) : exec .ret s = .next (s.raise .stackUnderflow) := by
  simp only [exec, execRet, h]

theorem exec_ret_of_cons {s : State} {a : Word} {rest : List Word} (h : s.stack = a :: rest) :
    exec .ret s = .next (s.popTo a rest) := by
  simp only [exec, execRet, h]

/-- Settles O14: the state CALL answers has one stack entry more, the advanced `PC`. -/
theorem callPushesReturnAddress : Obligations.CallPushesReturnAddress := by
  intro s nnn
  refine ⟨fun hsp => ?_, fun hsp => ⟨_, exec_call_of_ge nnn hsp, faulted_raise _ s⟩⟩
  have hstack : ((s.push s.pc).setPc (zextAddr nnn)).stack = s.pc :: s.stack := rfl
  exact ⟨_, exec_call_of_lt nnn hsp, State.sp_of_stack_cons hstack, State.stackEntry_newest hstack,
    fun _ hk => State.stackEntry_older hstack hk, toNat_zextAddr nnn, fun _ _ => rfl, fun _ => rfl, rfl⟩

/-- Settles O15: the state before RET has one stack entry more than the state after it, the new `PC`. -/
theorem returnPopsStack : Obligations.ReturnPopsStack := by
  intro s
  cases hs : s.stack with
  | nil =>
    have hsp : s.sp = 0 := by rw [State.sp, hs, List.length_nil]
    exact ⟨fun hpos => by omega, fun _ => ⟨_, exec_ret_of_nil hs, faulted_raise _ s⟩⟩
  | cons a rest =>
    have hstack : s.stack = a :: (s.popTo a rest).stack := hs
    have hsp : s.sp - 1 = (s.popTo a rest).sp := by rw [State.sp_of_stack_cons hstack, Nat.add_sub_cancel]
    refine ⟨fun _ => ?_, fun hzero => by rw [State.sp_of_stack_cons hstack] at hzero; omega⟩
    rw [hsp]
    exact ⟨_, exec_ret_of_cons hs, State.stackEntry_newest hstack, rfl,
      fun _ hk => (State.stackEntry_older hstack hk).symm, fun _ _ => rfl, fun _ => rfl, rfl⟩

/-- Settles O16: RET pops the entry CALL pushed, which is the old `PC`, and leaves the old stack. -/
theorem returnUndoesCall : Obligations.ReturnUndoesCall :=
  fun _ nnn h => ⟨_, exec_call_of_lt nnn h, exec_ret_of_cons rfl⟩

end Sys2Proof.Machine

/-! PROOFS. The statements about the register instructions (spec/41_alu.md R70 to R83): each writes `V[X]` alone, or `V[X]`
and then the flag. -/

namespace Sys2Proof.Machine

/-! ## Flag values (R83 (9)) -/

theorem flagByte_eq_zero_or_one (f : Bool) : flagByte f = 0 ∨ flagByte f = 1 := by
  cases f with
  | false => exact .inl flagByte_false
  | true => exact .inr flagByte_true

/-- Settles O24: five of the six write a flag byte into `VF` last, and DRW does too or records a fault. -/
theorem flagIsZeroOrOne : Obligations.FlagIsZeroOrOne := by
  intro i s t hw h hfault
  cases i with
  | addReg x _ | subReg x _ | shrReg x _ | subnReg x _ | shlReg x _ =>
    cases h
    rw [State.reg_setResultFlag_flag]
    exact flagByte_eq_zero_or_one _
  | drw x y n =>
    obtain ⟨-, rfl⟩ | ⟨-, rfl⟩ := execDrw_cases h
    · rw [State.reg_setReg_same]
      exact flagByte_eq_zero_or_one _
    · cases hfault
  | _ => cases hw

/-- The flag of a comparison, as ADD, SUB and SUBN compute it (R77, R78, R80). -/
theorem toNat_flagByte_decide (p : Prop) [Decidable p] : (flagByte (decide p)).toNat = if p then 1 else 0 := by
  by_cases h : p <;> simp [flagByte, h]

/-- The flag of an operand's bit, as SHR and SHL compute it (R79, R81). -/
theorem toNat_flagByte_getLsbD (v : Byte) (k : Nat) : (flagByte (v.getLsbD k)).toNat = v.toNat / 2 ^ k % 2 := by
  rw [← Nat.toNat_testBit, BitVec.testBit_toNat]
  cases v.getLsbD k <;> rfl

/-! ## What the two kinds of write leave alone -/

theorem onlyRegs_setReg (s : State) (x : RegIdx) (b : Byte) : OnlyRegs [x] s (s.setReg x b) :=
  ⟨fun _ hr => s.reg_setReg_other b (List.ne_of_not_mem_cons hr), fun _ => rfl, rfl⟩

theorem onlyRegs_setResultFlag (s : State) (x : RegIdx) (r f : Byte) : OnlyRegs [x, 15] s (s.setResultFlag x r f) := by
  refine ⟨fun y hy => ?_, fun _ => rfl, rfl⟩
  obtain ⟨hx, hf⟩ := not_or.1 (mt List.mem_cons.2 hy)
  exact s.reg_setResultFlag_other r f hx (List.ne_of_not_mem_cons hf)

/-- An instruction whose meaning writes a result and then a flag completes, with the flag what remains in `V[15]` (R72). -/
theorem setResultFlag_completes {i : Instr} {s : State} {x : RegIdx} {r f : Byte} {m n : Nat}
    (h : exec i s = .next (s.setResultFlag x r f)) (hr : r.toNat = m) (hf : f.toNat = n) :
    ∃ t, exec i s = .next t ∧ (x ≠ 15 → (t.reg x).toNat = m) ∧ (t.reg 15).toNat = n ∧ OnlyRegs [x, 15] s t := by
  refine ⟨_, h, fun hx => ?_, ?_, onlyRegs_setResultFlag s x r f⟩
  · rw [s.reg_setResultFlag_result r f hx, hr]
  · rw [State.reg_setResultFlag_flag, hf]

/-! ## Instructions that write no flag (R70, R71, R73 to R76, R82) -/

/-- Settles O17: both write one byte into `V[X]`, and the sum of two bytes is taken modulo 256. -/
theorem immediateLoadAndAdd : Obligations.ImmediateLoadAndAdd := fun s x nn =>
  ⟨⟨_, rfl, s.reg_setReg_same x nn, onlyRegs_setReg s x nn⟩,
    ⟨_, rfl, by rw [State.reg_setReg_same, BitVec.toNat_add], onlyRegs_setReg s x _⟩⟩

/-- Settles O18: each writes one byte into `V[X]`, whose bits are those of the operands combined. -/
theorem copyAndLogic : Obligations.CopyAndLogic := fun s x y =>
  ⟨⟨_, rfl, s.reg_setReg_same x _, onlyRegs_setReg s x _⟩,
    ⟨_, rfl, fun k => by rw [State.reg_setReg_same, BitVec.getLsbD_or], onlyRegs_setReg s x _⟩,
    ⟨_, rfl, fun k => by rw [State.reg_setReg_same, BitVec.getLsbD_and], onlyRegs_setReg s x _⟩,
    ⟨_, rfl, fun k => by rw [State.reg_setReg_same, BitVec.getLsbD_xor], onlyRegs_setReg s x _⟩⟩

theorem and_and_not_self (a b : Byte) : a &&& b &&& ~~~b = 0 := by
  rw [BitVec.and_assoc, BitVec.and_not_self]
  exact BitVec.and_zero

/-- Settles O22: the masked byte is written into `V[X]` of the state after the draw. -/
theorem randomByteIsMasked : Obligations.RandomByteIsMasked := by
  intro s x nn
  have hreg := s.drawn.reg_setReg_same x (Config.draw8 s.draws &&& nn)
  obtain ⟨hregs, hmem, -⟩ := onlyRegs_setReg s.drawn x (Config.draw8 s.draws &&& nn)
  exact ⟨_, rfl, hreg, hreg.symm ▸ and_and_not_self _ nn, rfl, hregs, hmem, rfl⟩

/-! ## Instructions that write the flag (R77 to R81) -/

/-- Settles O19: the sum wraps at 256, and the flag compares it before it does. -/
theorem addWritesSumAndCarry : Obligations.AddWritesSumAndCarry := fun s x y =>
  setResultFlag_completes rfl (BitVec.toNat_add (s.reg x) (s.reg y)) (toNat_flagByte_decide _)

/-- The difference of two bytes with the borrow added to the minuend. -/
theorem toNat_sub_byte (a b : Byte) : (a - b).toNat = (a.toNat + 256 - b.toNat) % 256 := by
  have hb := b.isLt
  rw [BitVec.toNat_sub']
  omega

/-- Settles O20: SUBN is SUB with the operands exchanged. -/
theorem subtractWritesNoBorrow : Obligations.SubtractWritesNoBorrow := fun s x y =>
  ⟨setResultFlag_completes rfl (toNat_sub_byte (s.reg x) (s.reg y)) (toNat_flagByte_decide _),
    setResultFlag_completes rfl (toNat_sub_byte (s.reg y) (s.reg x)) (toNat_flagByte_decide _)⟩

theorem toNat_ushiftRight_one (v : Byte) : (v >>> 1).toNat = v.toNat / 2 := by
  rw [BitVec.toNat_ushiftRight, Nat.shiftRight_one]

theorem toNat_shiftLeft_one (v : Byte) : (v <<< 1).toNat = v.toNat * 2 % 256 := by
  rw [BitVec.toNat_shiftLeft, Nat.shiftLeft_eq]

theorem toNat_shrFlag (v : Byte) : (shrFlag v).toNat = v.toNat % 2 := by
  rw [shrFlag, toNat_flagByte_getLsbD, pow_zero, Nat.div_one]

theorem toNat_shlFlag (v : Byte) : (shlFlag v).toNat = v.toNat / 128 := by
  have hv := v.isLt
  rw [shlFlag, toNat_flagByte_getLsbD]
  omega

/-- Settles O21: both shift the operand that `SHIFT_SRC` selects, and the flag is its lowest or its highest bit. -/
theorem shiftWritesBitShiftedOut : Obligations.ShiftWritesBitShiftedOut := by
  intro s x y v hv
  obtain rfl := hv.trans (shiftOperand_eq x y s).symm
  exact ⟨setResultFlag_completes rfl (toNat_ushiftRight_one _) (toNat_shrFlag _),
    setResultFlag_completes rfl (toNat_shiftLeft_one _) (toNat_shlFlag _)⟩

end Sys2Proof.Machine

/-! PROOFS. The statements about the display (spec/42_display.md R85 to R87): CLS blanks it, DRW makes of every state one
state, whose pixels and flag are read off the canvas once. -/

namespace Sys2Proof.Machine

/-! ## Clearing (R85) -/

/-- Settles O25: CLS redraws with the blank display. -/
theorem clearScreen : Obligations.ClearScreen := fun _ =>
  ⟨_, rfl, fun _ _ => Display.pixel_blank _, rfl, fun _ _ => rfl, fun _ => rfl, rfl⟩

/-! ## What one sprite makes of the display and of `VF` (R86, R87) -/

/-- The state after DRW of a sprite whose rows lie in memory. -/
def State.drawSprite (s : State) (x y : RegIdx) (n : Nibble) : State :=
  (s.redraw (s.canvas x y n).display).setReg vf (flagByte (s.canvas x y n).collision)

theorem exec_drw_eq_drawSprite {s : State} {x y : RegIdx} {n : Nibble} (h : s.spriteInBounds y n) :
    exec (.drw x y n) s = .next (s.drawSprite x y n) := execDrw_of_inBounds h

section sprite

variable (s : State) (x y : RegIdx) (n : Nibble)

/-- The sprite rows that are read fit below the origin. -/
theorem State.originY_add_length_spriteBytes_le :
    originY (s.reg y) + (s.mem.readMany s.base (spriteRows n (originY (s.reg y)))).length ≤ 32 := by
  rw [Memory.length_readMany]
  exact originY_add_spriteRows n (s.reg y)

theorem State.pixelAt_drawSprite {px py : Nat} (hpx : px < 64) (hpy : py < 32) :
    (s.drawSprite x y n).pixelAt px py = (s.pixelAt px py ^^ s.spriteCovers x y n px py) := by
  have hcanvas := Canvas.drawRows_pixel ⟨s.display, false⟩ (originX_add_spriteCols (s.reg x))
    (s.originY_add_length_spriteBytes_le y n) (py := py) hpx
  rw [← State.spriteCovers_iff hpx hpy, ← Bool.eq_iff_iff] at hcanvas
  exact Bool.eq_iff_iff.2 (hcanvas.trans Bool.xor_iff_ne.symm)

theorem State.collision_canvas_iff : (s.canvas x y n).collision = true ↔
    ∃ px py, px < 64 ∧ py < 32 ∧ s.pixelAt px py = true ∧ s.spriteCovers x y n px py = true := by
  refine (Canvas.drawRows_collision ⟨s.display, false⟩ (originX_add_spriteCols (s.reg x))
    (s.originY_add_length_spriteBytes_le y n)).trans ⟨?_, ?_⟩
  · rintro (hfalse | ⟨px, py, hpx, hpy, hcov, hpix⟩)
    · cases hfalse
    · exact ⟨px, py, hpx, hpy, hpix, (State.spriteCovers_iff hpx hpy).2 hcov⟩
  · rintro ⟨px, py, hpx, hpy, hpix, hcov⟩
    exact .inr ⟨px, py, hpx, hpy, (State.spriteCovers_iff hpx hpy).1 hcov, hpix⟩

theorem State.reg_drawSprite_flag : (s.drawSprite x y n).reg 15 = flagByte (s.canvas x y n).collision :=
  State.reg_setReg_same ..

theorem State.reg_drawSprite_flag_eq_one_iff : (s.drawSprite x y n).reg 15 = 1 ↔
    ∃ px py, px < 64 ∧ py < 32 ∧ s.pixelAt px py = true ∧ s.spriteCovers x y n px py = true := by
  rw [State.reg_drawSprite_flag, flagByte_eq_one, State.collision_canvas_iff]

theorem State.reg_drawSprite_other {r : RegIdx} (h : r ≠ 15) : (s.drawSprite x y n).reg r = s.reg r :=
  State.reg_setReg_other _ _ h

theorem State.reg_drawSprite_flag_eq_zero
    (h : ∀ px py, px < 64 → py < 32 → s.pixelAt px py = true → s.spriteCovers x y n px py = false) :
    (s.drawSprite x y n).reg 15 = 0 := by
  rw [State.reg_drawSprite_flag]
  refine (flagByte_eq_zero_or_one _).resolve_right fun hone => ?_
  obtain ⟨px, py, hpx, hpy, hpix, hcov⟩ := (s.collision_canvas_iff x y n).1 (flagByte_eq_one.1 hone)
  cases hcov.symm.trans (h px py hpx hpy hpix)

end sprite

/-- Settles O26: in bounds the state is `State.drawSprite`, out of bounds DRW only raises the fault. -/
theorem drawXorsCoveredPixels : Obligations.DrawXorsCoveredPixels := fun s x y n =>
  ⟨fun hb => ⟨_, exec_drw_eq_drawSprite hb, fun _ _ => s.pixelAt_drawSprite x y n,
      (s.reg_drawSprite_flag_eq_one_iff x y n).2, s.reg_drawSprite_flag_eq_zero x y n, rfl,
      fun _ hr => s.reg_drawSprite_other x y n (List.ne_of_not_mem_cons hr), fun _ => rfl, rfl⟩,
    fun hb => ⟨_, execDrw_of_outOfBounds hb, faulted_raise _ s⟩⟩

/-! ## Drawing twice (R86 (7)) -/

section spriteNotPlacedByVF

variable {s : State} {x y : RegIdx} (n : Nibble)

/-- A sprite that is not placed by `VF` covers the same pixels after it is drawn. -/
theorem State.spriteCovers_drawSprite (hx : x ≠ 15) (hy : y ≠ 15) :
    (s.drawSprite x y n).spriteCovers x y n = s.spriteCovers x y n := by
  unfold State.spriteCovers
  rw [s.reg_drawSprite_other x y n hx, s.reg_drawSprite_other x y n hy]
  rfl

theorem State.spriteInBounds_drawSprite (hy : y ≠ 15) (h : s.spriteInBounds y n) :
    (s.drawSprite x y n).spriteInBounds y n := by
  unfold State.spriteInBounds
  rw [s.reg_drawSprite_other x y n hy]
  exact h

theorem State.display_drawSprite_drawSprite (hx : x ≠ 15) (hy : y ≠ 15) :
    ((s.drawSprite x y n).drawSprite x y n).display = s.display := by
  refine Display.ext_pixel fun px py hpx hpy => ?_
  calc ((s.drawSprite x y n).drawSprite x y n).pixelAt px py
      = (s.pixelAt px py ^^ s.spriteCovers x y n px py ^^ s.spriteCovers x y n px py) := by
        rw [State.pixelAt_drawSprite _ x y n hpx hpy, State.spriteCovers_drawSprite n hx hy,
          State.pixelAt_drawSprite _ x y n hpx hpy]
    _ = s.pixelAt px py := by rw [Bool.xor_assoc, Bool.xor_self, Bool.xor_false]

end spriteNotPlacedByVF

/-- Settles O27: the second draw is of the same sprite, so it XORs the same pixels and collides with what the first left. -/
theorem drawTwiceRestoresDisplay : Obligations.DrawTwiceRestoresDisplay := by
  intro s x y n hx hy hb
  refine ⟨_, _, exec_drw_eq_drawSprite hb, exec_drw_eq_drawSprite (State.spriteInBounds_drawSprite n hy hb),
    State.display_drawSprite_drawSprite n hx hy, ?_⟩
  simp only [State.reg_drawSprite_flag_eq_one_iff, State.spriteCovers_drawSprite n hx hy, and_comm]

end Sys2Proof.Machine

/-! PROOFS. The statements about the keypad and the timers (spec/43_keypad_and_timers.md R90 to R95): which key an instruction
tests or waits for, and the byte a timer instruction moves. -/

namespace Sys2Proof.Machine

/-! ## Waiting for a key (R92) -/

/-- With no key down, LD Vx,K goes back by one instruction. -/
theorem exec_ldVxK_of_allUp {s : State} (x : RegIdx) (h : ∀ k : RegIdx, s.keyDown k = false) :
    exec (.ldVxK x) s = .next s.rewind := by
  rw [exec, execLdVxK, State.lowestKey_eq_none.2 h]

/-- LD Vx,K loads the lowest key that is down. -/
theorem exec_ldVxK_of_lowest {s : State} (x : RegIdx) {k : RegIdx} (h : s.keyDown k = true)
    (hlow : ∀ j : RegIdx, j < k → s.keyDown j = false) :
    exec (.ldVxK x) s = .next (s.setReg x (BitVec.ofNat 8 k.val)) := by
  rw [exec, execLdVxK, State.lowestKey_eq_some h hlow]

theorem State.rewind_advance (s : State) : s.advance.rewind = s := by
  rw [State.rewind, State.advance_pc, BitVec.add_sub_cancel]
  rfl

/-- Settles O29: the step advances `PC` by 2 and the instruction, finding no key down, goes back by 2. -/
theorem blockedWaitIsIdle : Obligations.BlockedWaitIsIdle := by
  intro s x hrun hfetch hkeys
  have hdecode : decode (encode (.ldVxK x)) = .ldVxK x := decodeOfEncodeIsIdentity _ rfl
  have hup : ∀ k : RegIdx, s.useStep.advance.keyDown k = false := fun k => by
    rw [State.keyDown, State.advance_keypad, State.useStep_keypad, hkeys]
    exact BitVec.getLsbD_zero
  calc step s = exec (.ldVxK x) s.useStep.advance := by
        rw [step_of_fetch hrun hfetch, hdecode, State.advance, State.useStep_pc]
    _ = .next s.useStep.advance.rewind := exec_ldVxK_of_allUp x hup
    _ = .next s.useStep := by rw [State.rewind_advance]

/-- A key index fits the byte it is loaded as. -/
theorem toNat_ofNat_key (k : RegIdx) : (BitVec.ofNat 8 k.val).toNat = k.val := by
  rw [BitVec.toNat_ofNat, Nat.mod_eq_of_lt (k.isLt.trans (by decide))]

/-- Settles O28: going back is a write of `PC` alone, and loading the key a write of `V[X]` alone. -/
theorem waitForKey : Obligations.WaitForKey := by
  intro s x
  refine ⟨fun hup => ⟨_, exec_ldVxK_of_allUp x fun k => hup k.val k.isLt, rfl, onlyPc_setPc s (s.pc - 2)⟩,
    fun k hk hdown hlow => ?_⟩
  have hexec := exec_ldVxK_of_lowest x (k := ⟨k, hk⟩) hdown fun j hj => hlow j.val hj
  exact ⟨_, hexec, by rw [State.reg_setReg_same, toNat_ofNat_key], onlyRegs_setReg s x _⟩

/-! ## Skips on a key (R90, R91) -/

theorem State.keyDown_keyIndex (s : State) (b : Byte) : s.keyDown (keyIndex b) = s.keypad.getLsbD (b.toNat % 16) := by
  rw [State.keyDown, val_keyIndex]

/-- Settles O12: both are skips on the key that the low four bits of `V[X]` name. -/
theorem keySkip : Obligations.KeySkip := fun s x =>
  ⟨skip_completes rfl (by rw [State.keyDown_keyIndex]),
    skip_completes rfl (by simp only [State.keyDown_keyIndex, Bool.not_eq_true', ← Bool.not_eq_true, ite_not])⟩

/-! ## Timers (R93 to R95) -/

/-- Settles O30: each is one write, of `V[X]`, `DT` or `ST`, and none is a write of the audio gate. -/
theorem timerTransfers : Obligations.TimerTransfers := fun s x =>
  ⟨⟨_, rfl, s.reg_setReg_same x _, onlyRegs_setReg s x _⟩,
    ⟨_, rfl, s.setDt_dt _, fun _ _ => rfl, fun _ => rfl, rfl⟩,
    ⟨_, rfl, s.setSt_st _, s.setSt_audioGate _, fun _ _ => rfl, fun _ => rfl, rfl⟩⟩

end Sys2Proof.Machine

/-! PROOFS. The statements about the index register and the memory instructions (spec/44_index_and_memory.md R100 to R105):
a store at `I` makes of every state one of two states, and so does a load from `I`; the instructions are read off these. -/

namespace Sys2Proof.Machine

/-! ## Writers of `I` (R100 to R102) -/

theorem onlyI_setI (s : State) (a : Word) : OnlyI s (s.setI a) :=
  ⟨fun _ _ => rfl, fun _ => rfl, rfl⟩

/-- Five times a byte fits 16 bits, so no glyph address wraps. -/
theorem toNat_glyphAddress (b : Byte) : (glyphAddress b).toNat = b.toNat * 5 := by
  have hb := b.isLt
  rw [glyphAddress, BitVec.toNat_ofNat, glyphH, Nat.mod_eq_of_lt (by omega)]

/-- Settles O31: each writes `I` alone, and of the three values only the sum can wrap. -/
theorem indexRegisterWrites : Obligations.IndexRegisterWrites := fun s x nnn =>
  ⟨⟨_, rfl, toNat_zextAddr nnn, onlyI_setI s _⟩,
    ⟨_, rfl, by rw [State.setI_i, BitVec.toNat_add, toNat_zextByte], onlyI_setI s _⟩,
    ⟨_, rfl, toNat_glyphAddress (s.reg x), onlyI_setI s _⟩⟩

/-! ## A store at `I` (R31, R103, R104) -/

/-- The state after a store at `I` whose bytes lie in memory. -/
def State.storedAtI (s : State) (vs : List Byte) : State := { s with mem := s.mem.writeMany s.base vs }

section store

variable {s : State} {vs : List Byte} {n : Nat} (hlen : vs.length = n + 1)
include hlen

/-- A store completes when the address of its last byte, `I + n`, is one of memory. -/
theorem storeAtI_of_inBounds (h : s.base + n ≤ 0xFFF) : storeAtI vs s = .next (s.storedAtI vs) := by
  rw [storeAtI, State.memWrite_eq_some.2 ⟨.inr (by omega), rfl⟩, State.storedAtI]

theorem storeAtI_of_outOfBounds (h : 0xFFF < s.base + n) : storeAtI vs s = .next (s.raise .dataBounds) := by
  rw [storeAtI, State.memWrite_eq_none.2 ⟨by omega, by omega⟩]

theorem onlyMem_storedAtI : OnlyMem s.base (n + 1) s (s.storedAtI vs) :=
  ⟨fun _ _ => rfl, fun _ hc => Memory.read_writeMany_outside (hlen ▸ hc), rfl⟩

theorem State.read_storedAtI {j : Nat} (hm : s.mem.wf = true) (h : s.base + n ≤ 0xFFF) (hj : j ≤ n) :
    (s.storedAtI vs).mem.read (s.base + j) = vs.getD j 0 :=
  Memory.read_writeMany_inside hm (by omega) (by omega) 0

end store

/-- The three digits of a byte as numbers: none exceeds a byte. -/
theorem toNat_getD_bcdDigits (b : Byte) :
    ((bcdDigits b).getD 0 0).toNat = b.toNat / 100 ∧ ((bcdDigits b).getD 1 0).toNat = b.toNat / 10 % 10 ∧
      ((bcdDigits b).getD 2 0).toNat = b.toNat % 10 := by
  have hb := b.isLt
  refine ⟨Nat.mod_eq_of_lt ?_, Nat.mod_eq_of_lt ?_, Nat.mod_eq_of_lt ?_⟩ <;> omega

/-- Settles O32: a store of the three digits. -/
theorem storeBcd : Obligations.StoreBcd := by
  refine fun s x hm => ⟨fun hb => ?_, fun hb => ⟨_, storeAtI_of_outOfBounds rfl hb, faulted_raise _ s⟩⟩
  have hread (j : Nat) (hj : j ≤ 2) : ((s.storedAtI (bcdDigits (s.reg x))).mem.read (s.base + j)).toNat =
      ((bcdDigits (s.reg x)).getD j 0).toNat := congrArg BitVec.toNat (State.read_storedAtI rfl hm hb hj)
  obtain ⟨hundreds, tens, ones⟩ := toNat_getD_bcdDigits (s.reg x)
  exact ⟨_, storeAtI_of_inBounds rfl hb, (hread 0 (by decide)).trans hundreds, (hread 1 (by decide)).trans tens,
    (hread 2 (by decide)).trans ones, onlyMem_storedAtI rfl⟩

/-! ## Dump and load of `V[0..X]` (R104, R105) -/

section dump

variable {s : State} {x : RegIdx}

/-- In bounds, LD [I],Vx stores the registers up to `X` at `I`. -/
theorem exec_storeRegs_of_inBounds (h : s.base + x.val ≤ 0xFFF) :
    exec (.storeRegs x) s = .next (s.storedAtI (s.regsUpTo x)) :=
  storeAtI_of_inBounds (s.length_regsUpTo x) h

theorem State.read_storedAtI_regsUpTo {k : RegIdx} (hm : s.mem.wf = true) (h : s.base + x.val ≤ 0xFFF) (hk : k ≤ x) :
    (s.storedAtI (s.regsUpTo x)).mem.read (s.base + k.val) = s.reg k :=
  (State.read_storedAtI (s.length_regsUpTo x) hm h hk).trans (s.getD_regsUpTo hk 0)

/-- The state after a load of `V[0..x]` from bytes at `I` that lie in memory. -/
def State.loadedFromI (s : State) (x : RegIdx) : State := s.loadRegs (s.mem.readMany s.base (x.val + 1))

/-- In bounds, LD Vx,[I] loads the registers up to `X` from `I`. -/
theorem exec_loadRegs_of_inBounds (h : s.base + x.val ≤ 0xFFF) : exec (.loadRegs x) s = .next (s.loadedFromI x) := by
  rw [exec, execLoadRegs, State.memRead_eq_some.2 ⟨.inr (by omega), rfl⟩, State.loadedFromI]

theorem exec_loadRegs_of_outOfBounds (h : 0xFFF < s.base + x.val) :
    exec (.loadRegs x) s = .next (s.raise .dataBounds) := by
  rw [exec, execLoadRegs, State.memRead_eq_none.2 ⟨by omega, by omega⟩]

theorem State.reg_loadedFromI_of_le {k : RegIdx} (hk : k ≤ x) :
    (s.loadedFromI x).reg k = s.mem.read (s.base + k.val) := by
  rw [State.loadedFromI, State.reg_loadRegs_readMany, if_pos hk]

theorem State.reg_loadedFromI_of_lt {k : RegIdx} (hk : x < k) : (s.loadedFromI x).reg k = s.reg k := by
  rw [State.loadedFromI, State.reg_loadRegs_readMany, if_neg (not_le.2 hk)]

/-- A load by a state whose memory and `I` are those a dump left reads back the registers dumped. -/
theorem State.reg_loadedFromI_of_dumped {u : State} {k : RegIdx} (hm : s.mem.wf = true) (h : s.base + x.val ≤ 0xFFF)
    (hmem : u.mem = (s.storedAtI (s.regsUpTo x)).mem) (hi : u.i = s.i) (hk : k ≤ x) :
    (u.loadedFromI x).reg k = s.reg k := by
  have hbase : u.base = s.base := congrArg BitVec.toNat hi
  calc (u.loadedFromI x).reg k = u.mem.read (u.base + k.val) := State.reg_loadedFromI_of_le hk
    _ = (s.storedAtI (s.regsUpTo x)).mem.read (s.base + k.val) := by rw [hmem, hbase]
    _ = s.reg k := State.read_storedAtI_regsUpTo hm h hk

end dump

/-- Settles O33: a store of the registers up to `X`. -/
theorem dumpRegisters : Obligations.DumpRegisters := fun s x hm =>
  ⟨fun hb => ⟨_, exec_storeRegs_of_inBounds hb, fun _ hk => State.read_storedAtI_regsUpTo hm hb hk,
      onlyMem_storedAtI (s.length_regsUpTo x)⟩,
    fun hb => ⟨_, storeAtI_of_outOfBounds (s.length_regsUpTo x) hb, faulted_raise _ s⟩⟩

/-- Settles O34: in bounds the state is `State.loadedFromI`, out of bounds the load only raises the fault. -/
theorem loadRegisters : Obligations.LoadRegisters := fun s _ =>
  ⟨fun hb => ⟨_, exec_loadRegs_of_inBounds hb, fun _ => State.reg_loadedFromI_of_le,
      fun _ => State.reg_loadedFromI_of_lt, fun _ => rfl, rfl⟩,
    fun hb => ⟨_, exec_loadRegs_of_outOfBounds hb, faulted_raise _ s⟩⟩

/-- Settles O35: neither the dump nor the new registers move `I`, so the load reads the bytes that the dump stored. -/
theorem dumpThenLoadRoundTrip : Obligations.DumpThenLoadRoundTrip := fun _ _ _ hm hb =>
  ⟨_, _, exec_storeRegs_of_inBounds hb, exec_loadRegs_of_inBounds hb,
    fun _ => State.reg_loadedFromI_of_dumped hm hb rfl rfl, fun _ => State.reg_loadedFromI_of_lt⟩

end Sys2Proof.Machine

/-! PROOFS. The statements about faults and the frame sequencer (spec/60_exceptions.md R110 to R127): which faults an
instruction records, what the top and the end of a frame do, and that the steps of a frame make up the frame. -/

namespace Sys2Proof.Machine

/-! ## Faults (R110, R111) -/

/-- The fault with a numeric code; a number that is no code stands for no fault. -/
def FaultCode.ofCode : Nat → FaultCode
  | 1 => .stackOverflow
  | 2 => .stackUnderflow
  | 3 => .fetchBounds
  | 4 => .dataBounds
  | _ => .none

theorem FaultCode.ofCode_code (f : FaultCode) : FaultCode.ofCode f.code = f := by
  cases f <;> rfl

/-- Settles O38: the codes are read off, and a code has one fault because the fault can be recovered from it. -/
theorem faultCodesMatchTable : Obligations.FaultCodesMatchTable :=
  ⟨rfl, rfl, rfl, rfl, rfl, fun _ _ h => Function.LeftInverse.injective FaultCode.ofCode_code h⟩

/-- An instruction enters a fault it raises, or leaves alone what fault entry writes. -/
theorem Effect.raised_or_goesOn {i : Instr} {s t : State} (h : Effect i s t) :
    (∃ f, s.raises i f ∧ t = s.raise f) ∨ (t.fault = s.fault ∧ t.runState = s.runState ∧ t.phase = s.phase) := by
  cases h with
  | fault f hf => exact .inl ⟨f, hf, rfl⟩
  | skip c _ => exact .inr ⟨s.skipIf_fault c, s.skipIf_runState c, s.skipIf_phase c⟩
  | _ => exact .inr ⟨rfl, rfl, rfl⟩

/-- Settles O37: the effects that record a fault are those of `State.raises`, which is the fault table. -/
theorem faultsArePreciseAndListed : Obligations.FaultsArePreciseAndListed := by
  intro i s t h
  obtain ⟨f, hf, rfl⟩ | ⟨hfault, hrun, -⟩ := (effect_of_exec h).raised_or_goesOn
  · cases f with
    | stackOverflow => exact .inr (.inl ⟨hf.1, hf.2, faulted_raise _ s⟩)
    | stackUnderflow => exact .inr (.inr (.inl ⟨hf.1, hf.2, faulted_raise _ s⟩))
    | dataBounds => exact .inr (.inr (.inr ⟨hf, faulted_raise _ s⟩))
    | fetchBounds | none => exact hf.elim
  · exact .inl ⟨hfault, hrun⟩

/-! ## Timers and the gate (R120, R121) -/

theorem gateOf_eq_on_iff {b : Byte} : gateOf b = .on ↔ 0 < b.toNat := by
  unfold gateOf
  split <;> simp_all

theorem State.timers_iterate_tickTimers (s : State) (k : Nat) :
    (State.tickTimers^[k] s).st.toNat = s.st.toNat - k ∧ (State.tickTimers^[k] s).dt.toNat = s.dt.toNat - k := by
  induction k with
  | zero => exact ⟨rfl, rfl⟩
  | succ k ih =>
    obtain ⟨hst, hdt⟩ := ih
    rw [Function.iterate_succ_apply', State.tickTimers_st, State.tickTimers_dt, countDown_toNat, countDown_toNat, hst, hdt]
    exact ⟨Nat.sub_sub _ _ _, Nat.sub_sub _ _ _⟩

/-- After at least one tick the gate is the one of the sound timer. -/
theorem State.audioGate_iterate_tickTimers (s : State) {k : Nat} (hk : 1 ≤ k) :
    (State.tickTimers^[k] s).audioGate = gateOf (State.tickTimers^[k] s).st := by
  obtain ⟨m, rfl⟩ := Nat.exists_eq_add_of_le' hk
  rw [Function.iterate_succ_apply', State.tickTimers_audioGate, State.tickTimers_st]

/-- Settles O44, by induction on the number of ticks: the gate follows the timer, which has `k` less. -/
theorem gateIsOnForNMinusOneTicks : Obligations.GateIsOnForNMinusOneTicks := by
  intro s k hk
  obtain ⟨hst, hdt⟩ := s.timers_iterate_tickTimers k
  refine ⟨?_, hst, hdt⟩
  rw [s.audioGate_iterate_tickTimers hk, gateOf_eq_on_iff, hst, Nat.sub_pos_iff_lt]

/-! ## The end of a frame (R118 (d), (e), R122) -/

theorem State.presentPending_outputs (s : State) :
    s.presentPending.outputs = (if s.redrawPending = true then [.present s.display] else []) ++ s.outputs := by
  unfold State.presentPending
  split <;> rfl

/-- Presenting writes `redraw_pending` and the record of outputs only. -/
theorem State.presentPending_eq (s : State) :
    s.presentPending = { s with redrawPending := false, outputs := s.presentPending.outputs } := by
  unfold State.presentPending
  split
  · rfl
  · next h => rw [← Bool.eq_false_of_not_eq_true h]

/-- Settles O43: with no step of the batch left the step is the tick, then the presentation. -/
theorem frameEndTicksAndPresents : Obligations.FrameEndTicksAndPresents := by
  intro s hr hp
  have heq := s.tickTimers.presentPending_eq
  refine ⟨s.frameEnd, step_of_batch_zero hr hp, ?_⟩
  rw [State.frameEnd, heq, State.presentPending_outputs]
  exact ⟨countDown_toNat _, countDown_toNat _, rfl, rfl, rfl, rfl, fun _ _ => rfl, fun _ => rfl, rfl⟩

/-! ## The top of a frame (R117, R118 (a), (b)) -/

/-- A waiting frame input, taken between frames, is the top of a frame. -/
theorem step_of_frame {s : State} {cmd : Command} {keys : Keys} {rest : List Input}
    (hb : s.runState = .running → s.phase = .between) (hi : s.inputs = .frame cmd keys :: rest) :
    step s = .next (({ s with inputs := rest } : State).frameTop stepsPerFrame cmd keys) :=
  step_of_input hb hi

section frameTop

variable {s : State} {n : Nat} {cmd : Command} {keys : Keys}

theorem State.frameTop_of_halted (h : s.runState = .halted) : s.frameTop n cmd keys = s := if_pos h

theorem State.frameTop_quit (h : s.runState ≠ .halted) (hp : s.phase = .between) :
    s.frameTop n .quit keys = { s with runState := .halted } := by
  simp [State.frameTop, h, State.command, ← hp]

theorem State.frameTop_of_paused (h : s.runState ≠ .halted) (hr : (s.command cmd).runState = .paused)
    (hp : (s.command cmd).phase = .between) : s.frameTop n cmd keys = { s.command cmd with keypad := keys } := by
  have hq : cmd ≠ .quit := by rintro rfl; cases hr
  simp [State.frameTop, h, hq, hr, State.sampleKeys, ← hp]

theorem State.frameTop_of_running (h : s.runState ≠ .halted) (hr : (s.command cmd).runState = .running) :
    s.frameTop n cmd keys = { s.command cmd with keypad := keys, phase := .batch n } := by
  have hq : cmd ≠ .quit := by rintro rfl; cases hr
  simp [State.frameTop, h, hq, hr, State.sampleKeys]

end frameTop

/-- Settles O42: the command ends the frame, pauses, or leaves the machine Running with a batch to follow. -/
theorem frameTopAppliesCommand : Obligations.FrameTopAppliesCommand := by
  intro s keys rest cmd hp hr hi
  rw [step_of_frame (fun _ => hp) hi]
  have hu : ({ s with inputs := rest } : State).runState ≠ .halted := hr
  refine ⟨?_, ?_, ?_, ?_, ?_, ?_⟩ <;> rintro rfl
  · exact congrArg _ (State.frameTop_quit hu hp)
  · exact congrArg _ (State.frameTop_of_paused hu rfl hp)
  · exact congrArg _ (State.frameTop_of_running hu rfl)
  · exact congrArg _ (State.frameTop_of_running hu rfl)
  · exact fun hpaused => congrArg _ (State.frameTop_of_paused hu hpaused hp)
  · exact fun hrunning => congrArg _ (State.frameTop_of_running hu hrunning)

/-! ## Halted (R113) -/

/-- Settles O46: the top of a frame leaves a Halted machine alone, and a load that fits sets every field. -/
theorem haltedIsAbsorbing : Obligations.HaltedIsAbsorbing := by
  intro s hr
  have hb : s.runState = .running → s.phase = .between := by simp [hr]
  refine ⟨fun hi => step_of_stopsWith (f := .halted) ⟨hr, hi⟩, fun cmd keys rest hi => ?_, fun image rest t hi ht => ?_⟩
  · exact (step_of_frame hb hi).trans (congrArg _ (State.frameTop_of_halted hr))
  · rw [step_of_input hb hi, State.accept] at ht
    obtain ⟨-, hl⟩ | ⟨-, hl⟩ := State.load_cases { s with inputs := rest } image <;> rw [hl] at ht <;> cases ht
    exact ⟨rfl, rfl⟩

/-! ## The parameters (R127) -/

theorem State.command_params (s : State) (cmd : Command) : (s.command cmd).params = s.params := by
  cases cmd <;> rfl

theorem State.frameTop_params (s : State) (n : Nat) (cmd : Command) (keys : Keys) :
    (s.frameTop n cmd keys).params = s.params := by
  obtain ⟨-, ht⟩ | ⟨-, -, ht⟩ | ⟨-, -, -, ht⟩ | ⟨-, -, -, ht⟩ := s.frameTop_cases n cmd keys <;> rw [ht]
  · exact s.command_params cmd
  · exact s.command_params cmd

theorem State.executeNext_params {s t : State} (h : s.executeNext = .next t) : t.params = s.params := by
  obtain ⟨-, hr⟩ | ⟨-, hr⟩ := State.executeNext_cases h
  · cases hr; rfl
  · exact (instructionsLeaveTheRestAlone _ _ _ hr.symm).1

/-- Settles O50: each of the four agents a step can belong to keeps the parameters. -/
theorem configurationNeverChanges : Obligations.ConfigurationNeverChanges := by
  intro s t h
  obtain ⟨-, he⟩ | ⟨-, -, rfl⟩ | ⟨cmd, keys, rest, -, -, rfl⟩ | ⟨image, rest, -, -, -, rfl⟩ := step_cases h
  · rw [State.executeNext_params he, State.useStep_params]
  · exact s.tickTimers.presentPending_params
  · exact State.frameTop_params _ _ _ _
  · rfl

/-! ## The steps of a frame make up the frame (R118) -/

theorem runSteps_one {s t : State} (h : step s = .next t) : runSteps 1 s = .next t := by
  simp [runSteps, h]

theorem runSteps_succ {s t : State} (h : step s = .next t) (k : Nat) : runSteps (k + 1) s = runSteps k t := by
  simp [runSteps, h]

/-- A step of the executor halts the machine, or leaves the run state and the phase alone. -/
theorem State.executeNext_halted_or_goesOn {s t : State} (h : s.executeNext = .next t) :
    t.runState = .halted ∨ (t.runState = s.runState ∧ t.phase = s.phase) := by
  obtain ⟨-, hr⟩ | ⟨-, hr⟩ := State.executeNext_cases h
  · cases hr; exact .inl rfl
  · obtain ⟨f, -, rfl⟩ | ⟨-, hrun, hphase⟩ := (effect_of_exec hr.symm).raised_or_goesOn
    · exact .inl rfl
    · exact .inr ⟨hrun, hphase⟩

/-- What follows the batch: nothing after a fault, the end of the frame otherwise. -/
def State.closeBatch (s : State) : State := if s.runState = .halted then s else s.frameEnd

/-- A batch of `n` steps, and what follows it, take at most `n + 1` steps of the machine. -/
theorem runSteps_batch {s : State} {n : Nat} (hr : s.runState = .running) (hp : s.phase = .batch n) :
    ∃ k t, k ≤ n + 1 ∧ s.runBatch n = .next t ∧ runSteps k s = .next t.closeBatch := by
  induction n generalizing s with
  | zero =>
    have hclose : s.closeBatch = s.frameEnd := if_neg (by simp [hr])
    exact ⟨1, s, Nat.le_refl _, rfl, hclose ▸ runSteps_one (step_of_batch_zero hr hp)⟩
  | succ n ih =>
    have huse : s.useStep = { s with phase := .batch n } := by simp [State.useStep, hp]
    obtain ⟨t, ht⟩ := s.useStep.executeNext_goesOn
    have hstep : step s = .next t := step_of_runsInstruction ⟨hr, .inr ⟨n, hp⟩⟩ ▸ ht
    rw [huse] at ht
    by_cases hh : t.runState = .halted
    · refine ⟨1, t, by omega, by simp [State.runBatch, ht, hh], ?_⟩
      rw [runSteps_one hstep, State.closeBatch, if_pos hh]
    · obtain ⟨hrun, hphase⟩ := (State.executeNext_halted_or_goesOn ht).resolve_left hh
      obtain ⟨k, u, hk, hu, hrest⟩ := ih (hrun.trans hr) hphase
      exact ⟨k + 1, u, by omega, by simp [State.runBatch, ht, hh, hu], (runSteps_succ hstep k).trans hrest⟩

/-- The top of a frame starts the batch exactly when it leaves the machine Running. -/
theorem State.frameTop_phase {s : State} {n : Nat} {cmd : Command} {keys : Keys}
    (h : (s.frameTop n cmd keys).runState = .running) : (s.frameTop n cmd keys).phase = .batch n := by
  obtain ⟨hr, ht⟩ | ⟨-, -, ht⟩ | ⟨-, -, hr, ht⟩ | ⟨-, -, -, ht⟩ := s.frameTop_cases n cmd keys <;> rw [ht] at h ⊢
  · cases hr.symm.trans h
  · cases h
  · cases hr.symm.trans h

/-- A frame is its top, and a batch with what follows it if the top left the machine Running. -/
theorem State.frame_of_not_running {s : State} {n : Nat} {cmd : Command} {keys : Keys}
    (h : (s.frameTop n cmd keys).runState ≠ .running) : s.frame n cmd keys = .next (s.frameTop n cmd keys) :=
  if_neg h

theorem State.frame_of_runBatch {s t : State} {n : Nat} {cmd : Command} {keys : Keys}
    (h : (s.frameTop n cmd keys).runState = .running) (ht : (s.frameTop n cmd keys).runBatch n = .next t) :
    s.frame n cmd keys = .next t.closeBatch := by
  simp only [State.frame, h, ht, if_true, State.closeBatch]
  split <;> rfl

/-- Settles O45: one step for the top, then the batch, by induction on the steps left in it. -/
theorem stepsRefineFrame : Obligations.StepsRefineFrame := by
  intro s cmd keys rest hp hi
  have htop := step_of_frame (fun _ => hp) hi
  by_cases hr : (({ s with inputs := rest } : State).frameTop stepsPerFrame cmd keys).runState = .running
  · obtain ⟨k, t, hk, hbatch, hsteps⟩ := runSteps_batch hr (State.frameTop_phase hr)
    refine ⟨k + 1, by omega, by omega, ?_⟩
    rw [runSteps_succ htop, hsteps, State.frame_of_runBatch hr hbatch]
  · exact ⟨1, Nat.le_refl _, by omega, by rw [runSteps_one htop, State.frame_of_not_running hr]⟩

end Sys2Proof.Machine

/-! PROOFS. The statements about load and reset (spec/70_reset_and_hazards.md R130, R131): the load a step takes, the first
load, and the soft reset. -/

namespace Sys2Proof.Machine

section load

variable {s : State} {p : Params} {image : List Byte}

theorem State.load_of_fits (h : image.length ≤ s.params.capacity) : s.load image = .ok (s.loaded image) := if_pos h

theorem State.load_of_tooLarge (h : s.params.capacity < image.length) : s.load image = .error .imageTooLarge :=
  if_neg (Nat.not_le.2 h)

theorem State.accept_load_of_fits (h : image.length ≤ s.params.capacity) :
    s.accept (.load image) = .next (s.loaded image) := by
  rw [State.accept, State.load_of_fits h]

theorem State.accept_load_of_tooLarge (h : s.params.capacity < image.length) :
    s.accept (.load image) = .fault .imageTooLarge := by
  rw [State.accept, State.load_of_tooLarge h]

/-- The state the first load starts from: the one after reset with parameters `p` and nothing presented. -/
def State.unloaded (p : Params) : State := { State.reset with params := p, outputs := [] }

theorem State.boot_eq_load : State.boot p image = (State.unloaded p).load image := rfl

end load

/-- Settles O48: the step is the load, and `State.justLoaded_loaded` says what a load that fits leaves. -/
theorem loadEstablishesResetState : Obligations.LoadEstablishesResetState := by
  intro s image rest hp hi
  rw [step_of_input (fun _ => hp) hi]
  exact ⟨fun hfit => ⟨_, State.accept_load_of_fits hfit, State.justLoaded_loaded hfit, rfl, rfl, rfl⟩,
    fun hbig => State.accept_load_of_tooLarge hbig⟩

/-- Settles O49: the first load is a load by a state that already has the parameters. -/
theorem bootTakesEveryParameter : Obligations.BootTakesEveryParameter := by
  intro p image
  rw [State.boot_eq_load]
  exact ⟨fun hfit => ⟨_, State.load_of_fits hfit, State.justLoaded_loaded (s := State.unloaded p) hfit, rfl, rfl, rfl⟩,
    fun hbig => State.load_of_tooLarge hbig⟩

/-- Settles O51: Reset at a frame top loads the retained image and so leaves the machine Running, with a batch to follow. -/
theorem softResetReloadsImage : Obligations.SoftResetReloadsImage := by
  intro s keys rest hp hr hi
  have hu : ({ s with inputs := rest } : State).runState ≠ .halted := hr
  rw [step_of_frame (fun _ => hp) hi]
  exact congrArg _ (State.frameTop_of_running hu rfl)

end Sys2Proof.Machine
